-- ==== Sys2Proof/Word.lean ====
section
/-! DEFINITION. Sys2Proof/Word.lean: the machine's words. Bytes, CRC values, byte strings, four-character checksum texts
(00_scope.md R8, R9), the framer's three states (10_state.md R24), what the three agents present (R4, R80) and what the
block answers (R12, R83). Types only. -/

namespace Sys2Proof

/-- A byte: 8 bits, bit 0 least significant (R8). -/
abbrev Byte := BitVec 8

/-- A value of a CRC register, `CRCW = 16` bits (R7). -/
abbrev CrcWord := BitVec 16

/-- A byte string `s[0] .. s[|s|-1]` (R9). -/
abbrev ByteString := List Byte

/-- Four characters in order: a checksum text, the most significant digit first (R12 `Hex(h)`, R53, R75). -/
structure Quad where
  c0 : Byte
  c1 : Byte
  c2 : Byte
  c3 : Byte
deriving DecidableEq, Repr

/-- The framer's states `IDLE`, `COLLECT`, `RDCK` (R24). -/
inductive Fst where
  | idle
  | collect
  | rdck
deriving DecidableEq, Repr

/-- A format-`H` record (R80): the operation code and the operand fields. An operation uses the fields its row of R81
names and ignores the rest. -/
structure HostRecord where
  hop  : BitVec 4
  b    : Byte
  idx  : BitVec 16
  tag  : ByteString
  unit : ByteString
deriving DecidableEq, Repr

/-- One undecoded operation of the merged order (R3, R4, R70): a stream byte, a host record, or the reset event. -/
inductive Input where
  | rx (b : Byte)
  | host (r : HostRecord)
  | reset
deriving DecidableEq, Repr

/-- Why the decoder rejects a record: an operand it uses is longer than `PATMAX` (R7, R80). -/
inductive DecodeError where
  | tagTooLong (length : Nat)
  | unitTooLong (length : Nat)
deriving DecidableEq, Repr

/-- The five error codes (R83, R202). -/
inductive ErrCode where
  | notReady
  | badField
  | overflow
  | badIndex
  | badOp
deriving DecidableEq, Repr

/-- The responses (R12): every operation returns exactly one. -/
inductive Response where
  | none
  | done (v : Bool)
  | word (w : BitVec 16)
  | hex (h : Quad)
  | stat (s : BitVec 8) (l : BitVec 16)
  | byte (b : Byte)
  | val (n : BitVec 32)
  | err (e : ErrCode)
deriving DecidableEq, Repr

end Sys2Proof
end

