-- ==== Sys2Proof/Config.lean ====
section
/-! DEFINITION. Sys2Proof/Config.lean: what an implementation fixes (00_scope.md R7). `MAXLEN` is the one OPEN parameter
(D5): a value without a body here, so that no proof can rest on a number. The fixed parameters that the decoder needs
stand beside it; `POLY`, `CRCINIT` stand with the CRC unit (Machine/Crc.lean). -/

namespace Sys2Proof

/-- The configuration of one implementation: the capacity `MAXLEN` of the frame buffer, `1 <= MAXLEN <= 65535` (R7, D5). -/
structure Config where
  maxlen : Nat
  maxlen_pos : 1 ≤ maxlen
  maxlen_le : maxlen ≤ 65535
deriving DecidableEq, Repr

/-- The configuration whose capacity is `k + 1`: every legal `MAXLEN` is one of these. -/
def Config.ofPred (k : Fin 65535) : Config where
  maxlen := k.val + 1
  maxlen_pos := Nat.succ_pos _
  maxlen_le := k.isLt

/-- `MAXLEN - 1` of the implementation at hand. DESIGN CHOICE (log 1): the spec leaves `MAXLEN` open (D5, U3, N5), so it
has no value in the model. -/
opaque Config.freeMaxlenPred : Fin 65535

/-- The implementation at hand; its `MAXLEN` is any legal value (log 1). -/
def Config.implementation : Config := Config.ofPred Config.freeMaxlenPred

/-- `SOF`, the frame-start byte `/` (R7, R11). -/
def sofByte : Byte := 0x2F#8

/-- `CKM`, the checksum-marker byte `!` (R7, R11). -/
def ckmByte : Byte := 0x21#8

/-- `PATMAX`, the largest length of a `tag` or `unit` operand (R7, D12). -/
def patMax : Nat := 255

end Sys2Proof
end

