-- ==== Sys2Proof/Syntax.lean ====
section
/-! DEFINITION. Sys2Proof/Syntax.lean: the operations, one constructor per row of spec/opcode_table.json and in the
table's order. A stream form carries the byte it was decoded from where the row leaves that byte open. -/

namespace Sys2Proof

/-- The decoded operations: seven stream forms (30_encoding.md R73), ten host operations and the reserved codes (R81,
R82), and the reset event (R70). -/
inductive Instr where
  /-- `RX.SOF` (R121): the frame-start byte. -/
  | rxSof
  /-- `RX.SKIP` (R122): any other byte in `IDLE`. -/
  | rxSkip (b : Byte)
  /-- `RX.CKM` (R125): the checksum marker in `COLLECT`. -/
  | rxCkm
  /-- `RX.DATA` (R123): an ordinary byte in `COLLECT`, with room. -/
  | rxData (b : Byte)
  /-- `RX.DROP` (R124): an ordinary byte in `COLLECT`, buffer full. -/
  | rxDrop (b : Byte)
  /-- `RX.CKB` (R126): the first, second or third checksum byte. -/
  | rxCkb (b : Byte)
  /-- `RX.CKE` (R127): the fourth checksum byte. -/
  | rxCke (b : Byte)
  /-- `CRC.CLR` (R104). -/
  | crcClr
  /-- `CRC.UPD b` (R105). -/
  | crcUpd (b : Byte)
  /-- `CRC.RD` (R106). -/
  | crcRd
  /-- `CRC.HEX` (R107). -/
  | crcHex
  /-- `FRM.STAT` (R180). -/
  | frmStat
  /-- `FRM.RDB idx` (R181). -/
  | frmRdb (idx : BitVec 16)
  /-- `FRM.RDCK` (R182). -/
  | frmRdck
  /-- `EXT.FIELD tag, unit` (R153). -/
  | extField (tag unit : ByteString)
  /-- `EXT.DATE tag` (R155). -/
  | extDate (tag : ByteString)
  /-- `EXT.TIME tag` (R156). -/
  | extTime (tag : ByteString)
  /-- A reserved `hop` value (R82, R183). -/
  | hReserved (hop : BitVec 4)
  /-- `RESET` (R230). -/
  | reset
deriving DecidableEq, Repr

end Sys2Proof
end

