-- ==== Sys2Proof/WellFormed.lean ====
section
/-! DEFINITION. Sys2Proof/WellFormed.lean: which terms of `Instr` stand for an operation the spec encodes: the byte a
stream form may carry (30_encoding.md R73), the length of a byte-string operand (R80) and the reserved codes (R82). -/

namespace Sys2Proof

/-- A byte that is not the frame-start byte: what the rows after `RX.SOF` are left with (R73). -/
def notSof (b : Byte) : Bool := b != sofByte

/-- An ordinary byte, class `OTHER` (R72). -/
def ordinaryByte (b : Byte) : Bool := b != sofByte && b != ckmByte

/-- A byte-string operand of legal length (R7 `PATMAX`, R80). -/
def operandFits (s : ByteString) : Bool := decide (s.length ≤ patMax)

/-- The reserved operation codes `0x0` and `0xB` to `0xF` (R82). -/
def reservedHop (hop : BitVec 4) : Bool := hop.toNat == 0 || decide (11 ≤ hop.toNat)

/-- The operands are ones the row's encoding admits. -/
def Instr.wellFormed : Instr → Bool
  | .rxSof => true
  | .rxSkip b => notSof b
  | .rxCkm => true
  | .rxData b => ordinaryByte b
  | .rxDrop b => ordinaryByte b
  | .rxCkb b => notSof b
  | .rxCke b => notSof b
  | .crcClr => true
  | .crcUpd _ => true
  | .crcRd => true
  | .crcHex => true
  | .frmStat => true
  | .frmRdb _ => true
  | .frmRdck => true
  | .extField tag unit => operandFits tag && operandFits unit
  | .extDate tag => operandFits tag
  | .extTime tag => operandFits tag
  | .hReserved hop => reservedHop hop
  | .reset => true

/-- The operations an agent can present: a record's byte strings have legal lengths (R80). -/
def Input.wellFormed : Input → Bool
  | .rx _ => true
  | .host r => operandFits r.tag && operandFits r.unit
  | .reset => true

end Sys2Proof
end

