-- ==== Sys2Proof/Decode.lean ====
section
/-! DEFINITION. Sys2Proof/Decode.lean: the decoder (30_encoding.md R71 to R73, R80 to R82), total on every input, which
rejects a record with an over-long operand by name; the encoder; the spec's opcode table as data with the choice rule of
R88; and the host's reading of a table word. -/

namespace Sys2Proof

/-- What decoding a stream byte depends on beside the byte (R73): the framer's state, whether `len < MAXLEN`, and
whether `ckcnt = 3`. -/
structure DecodeMode where
  fst  : Fst
  room : Bool
  last : Bool
deriving DecidableEq, Repr

/-- Format `S` (R73): the rows are tried from the top, the frame-start byte first in every state. -/
def decodeStream (m : DecodeMode) (b : Byte) : Instr :=
  if b = sofByte then .rxSof
  else match m.fst with
    | .idle => .rxSkip b
    | .collect => if b = ckmByte then .rxCkm else if m.room then .rxData b else .rxDrop b
    | .rdck => if m.last then .rxCke b else .rxCkb b

/-- A record whose used operand `tag` is over `PATMAX` bytes is no format-`H` record (R80). -/
def checkTag (tag : ByteString) (i : Instr) : Except DecodeError Instr :=
  if operandFits tag then .ok i else .error (.tagTooLong tag.length)

/-- The same for `tag` and `unit`, `tag` first. -/
def checkTagUnit (tag unit : ByteString) (i : Instr) : Except DecodeError Instr :=
  if operandFits tag then
    if operandFits unit then .ok i else .error (.unitTooLong unit.length)
  else .error (.tagTooLong tag.length)

/-- Format `H` (R81, R82): the operation code selects the row; a code no row names is reserved, whatever the other fields
are (R208 item 2). -/
def decodeHost (r : HostRecord) : Except DecodeError Instr :=
  match r.hop.toNat with
  | 1 => .ok .crcClr
  | 2 => .ok (.crcUpd r.b)
  | 3 => .ok .crcRd
  | 4 => .ok .crcHex
  | 5 => .ok .frmStat
  | 6 => .ok (.frmRdb r.idx)
  | 7 => .ok .frmRdck
  | 8 => checkTagUnit r.tag r.unit (.extField r.tag r.unit)
  | 9 => checkTag r.tag (.extDate r.tag)
  | 10 => checkTag r.tag (.extTime r.tag)
  | _ => .ok (.hReserved r.hop)

/-- The decoder (R70): one operation per input. -/
def decode (m : DecodeMode) : Input → Except DecodeError Instr
  | .rx b => .ok (decodeStream m b)
  | .host r => decodeHost r
  | .reset => .ok .reset

/-- A record with the operation code `hop` and every operand field empty. -/
def hopRecord (hop : BitVec 4) : HostRecord :=
  { hop := hop, b := 0#8, idx := 0#16, tag := [], unit := [] }

/-- The encoder: the byte, record or event that stands for an operation (R72, R73, R81). Fields the operation does not
use are zero or empty (log 10). -/
def encode : Instr → Input
  | .rxSof => .rx sofByte
  | .rxSkip b => .rx b
  | .rxCkm => .rx ckmByte
  | .rxData b => .rx b
  | .rxDrop b => .rx b
  | .rxCkb b => .rx b
  | .rxCke b => .rx b
  | .crcClr => .host (hopRecord 0x1#4)
  | .crcUpd b => .host { hopRecord 0x2#4 with b := b }
  | .crcRd => .host (hopRecord 0x3#4)
  | .crcHex => .host (hopRecord 0x4#4)
  | .frmStat => .host (hopRecord 0x5#4)
  | .frmRdb idx => .host { hopRecord 0x6#4 with idx := idx }
  | .frmRdck => .host (hopRecord 0x7#4)
  | .extField tag unit => .host { hopRecord 0x8#4 with tag := tag, unit := unit }
  | .extDate tag => .host { hopRecord 0x9#4 with tag := tag }
  | .extTime tag => .host { hopRecord 0xA#4 with tag := tag }
  | .hReserved hop => .host (hopRecord hop)
  | .reset => .reset

/-- The states in which a stream row applies (R73, columns `fst` and "further condition"); host operations and `RESET`
apply in every state. -/
def Instr.appliesIn (m : DecodeMode) : Instr → Bool
  | .rxSkip _ => m.fst == .idle
  | .rxCkm => m.fst == .collect
  | .rxData _ => m.fst == .collect && m.room
  | .rxDrop _ => m.fst == .collect && !m.room
  | .rxCkb _ => m.fst == .rdck && !m.last
  | .rxCke _ => m.fst == .rdck && m.last
  | _ => true

/-! ## The opcode table as data (R88) -/

/-- A format-`S` row of opcode_table.json: `match` and `mask` over the byte, the `fst` values, the conditions on `len`
(`some true` is `len < MAXLEN`) and `ckcnt` (`some true` is `ckcnt = 3`), the order, and the operation. -/
structure StreamRow where
  mnemonic : String
  bits     : Byte
  mask     : Byte
  modes    : List Fst
  room     : Option Bool
  last     : Option Bool
  order    : Nat
  form     : Byte → Instr

/-- The seven format-`S` rows, as the table lists them. -/
def streamTable : List StreamRow := [
  { mnemonic := "RX.SOF", bits := 0x2F#8, mask := 0xFF#8, modes := [.idle, .collect, .rdck],
    room := none, last := none, order := 1, form := fun _ => .rxSof },
  { mnemonic := "RX.SKIP", bits := 0x00#8, mask := 0x00#8, modes := [.idle],
    room := none, last := none, order := 2, form := .rxSkip },
  { mnemonic := "RX.CKM", bits := 0x21#8, mask := 0xFF#8, modes := [.collect],
    room := none, last := none, order := 3, form := fun _ => .rxCkm },
  { mnemonic := "RX.DATA", bits := 0x00#8, mask := 0x00#8, modes := [.collect],
    room := some true, last := none, order := 4, form := .rxData },
  { mnemonic := "RX.DROP", bits := 0x00#8, mask := 0x00#8, modes := [.collect],
    room := some false, last := none, order := 5, form := .rxDrop },
  { mnemonic := "RX.CKB", bits := 0x00#8, mask := 0x00#8, modes := [.rdck],
    room := none, last := some false, order := 6, form := .rxCkb },
  { mnemonic := "RX.CKE", bits := 0x00#8, mask := 0x00#8, modes := [.rdck],
    room := none, last := some true, order := 7, form := .rxCke } ]

/-- A condition of a row holds: absent, or equal to the mode's bit. -/
def condHolds (c : Option Bool) (v : Bool) : Bool :=
  match c with
  | none => true
  | some w => w == v

/-- The row's `mode` contains `fst`, its `cond` holds, and `(b & mask) = match` (R88). -/
def StreamRow.selects (row : StreamRow) (m : DecodeMode) (b : Byte) : Bool :=
  row.modes.contains m.fst && condHolds row.room m.room && condHolds row.last m.last
    && (b &&& row.mask) == row.bits

/-- The row of smallest order among those that select (R88). -/
def leastRow (m : DecodeMode) (b : Byte) : List StreamRow → Option StreamRow
  | [] => none
  | row :: rows =>
    if row.selects m b then
      match leastRow m b rows with
      | none => some row
      | some other => if other.order < row.order then some other else some row
    else leastRow m b rows

/-- A byte decoded by the table (R88). -/
def tableDecodeStream (m : DecodeMode) (b : Byte) : Option Instr :=
  (leastRow m b streamTable).map (fun row => row.form b)

/-- A format-`H` row: `match` and `mask` over `hop`, the order, and the operation with the fields it uses (R80, R88). -/
structure HostRow where
  mnemonic : String
  bits     : BitVec 4
  mask     : BitVec 4
  order    : Nat
  form     : HostRecord → Instr

/-- The eleven format-`H` rows, as the table lists them; the last catches the codes no other row matches (R82). -/
def hostTable : List HostRow := [
  { mnemonic := "CRC.CLR", bits := 0x1#4, mask := 0xF#4, order := 1, form := fun _ => .crcClr },
  { mnemonic := "CRC.UPD", bits := 0x2#4, mask := 0xF#4, order := 1, form := fun r => .crcUpd r.b },
  { mnemonic := "CRC.RD", bits := 0x3#4, mask := 0xF#4, order := 1, form := fun _ => .crcRd },
  { mnemonic := "CRC.HEX", bits := 0x4#4, mask := 0xF#4, order := 1, form := fun _ => .crcHex },
  { mnemonic := "FRM.STAT", bits := 0x5#4, mask := 0xF#4, order := 1, form := fun _ => .frmStat },
  { mnemonic := "FRM.RDB", bits := 0x6#4, mask := 0xF#4, order := 1, form := fun r => .frmRdb r.idx },
  { mnemonic := "FRM.RDCK", bits := 0x7#4, mask := 0xF#4, order := 1, form := fun _ => .frmRdck },
  { mnemonic := "EXT.FIELD", bits := 0x8#4, mask := 0xF#4, order := 1, form := fun r => .extField r.tag r.unit },
  { mnemonic := "EXT.DATE", bits := 0x9#4, mask := 0xF#4, order := 1, form := fun r => .extDate r.tag },
  { mnemonic := "EXT.TIME", bits := 0xA#4, mask := 0xF#4, order := 1, form := fun r => .extTime r.tag },
  { mnemonic := "H.RESERVED", bits := 0x0#4, mask := 0x0#4, order := 2, form := fun r => .hReserved r.hop } ]

/-- The row of smallest order among those with `(hop & mask) = match` (R88). -/
def leastHostRow (hop : BitVec 4) : List HostRow → Option HostRow
  | [] => none
  | row :: rows =>
    if (hop &&& row.mask) == row.bits then
      match leastHostRow hop rows with
      | none => some row
      | some other => if other.order < row.order then some other else some row
    else leastHostRow hop rows

/-- A record decoded by the table (R88). -/
def tableDecodeHost (r : HostRecord) : Option Instr :=
  (leastHostRow r.hop hostTable).map (fun row => row.form r)

/-! ## The host's reading of one table word (log 9) -/

/-- The input a table word stands for. The spec numbers a format-`S` row over the 8 bits of a byte and a format-`H` row
over the 4 bits of `hop`; where the host rounds a width up to a whole byte, the numbers 1 to 15 are read as `hop` and
every other one as a stream byte. A width of 0 is `RESET`. Operands beyond the table's bits are zero or empty. -/
def tableInput (nbits w : Nat) : Option Input :=
  if nbits = 0 then (if w = 0 then some .reset else none)
  else if nbits ≤ 4 then (if w < 16 then some (.host (hopRecord (BitVec.ofNat 4 w))) else none)
  else if nbits ≤ 8 then
    (if 256 ≤ w then none
     else if 1 ≤ w ∧ w ≤ 15 then some (.host (hopRecord (BitVec.ofNat 4 w)))
     else some (.rx (BitVec.ofNat 8 w)))
  else none

/-- The mode in which a table word is read (R73): `COLLECT` for the marker, which is `RX.CKM` only there, and `IDLE`, the
state after reset, for every other byte. -/
def tableMode : Input → DecodeMode
  | .rx b => { fst := if b = ckmByte then .collect else .idle, room := true, last := false }
  | .host _ => { fst := .idle, room := true, last := false }
  | .reset => { fst := .idle, room := true, last := false }

/-- The operation the decoder reads from a table word (log 9). -/
def decodeTableWord (nbits w : Nat) : Option Instr :=
  match tableInput nbits w with
  | none => none
  | some inp =>
    match decode (tableMode inp) inp with
    | .ok i => some i
    | .error _ => none

end Sys2Proof
end

