-- ==== Sys2Proof/Machine/State.lean ====
section
/-! DEFINITION. Sys2Proof/Machine/State.lean: the state. The spec's nine items (10_state.md R20) under the spec's own names,
and three fields of the model's own: the implementation parameter, the operations still to come, and the last response. -/

namespace Sys2Proof.Machine

/-- A byte array as (index, byte) pairs with strictly rising indices. An index that is not listed holds no value: the
spec gives such entries none (R25, R36; log 4, log 5). -/
abbrev Memory := List Host.Cell

/-- The state of the block.

The spec's (R20): `gcrc` the host's CRC register (R21); `fcrc` the framer's private CRC register (R22); `fst` the
framer's state (R24); `buf` the frame buffer (R25); `len` the number of captured bytes (R26); `ckf` the checksum field
(R27); `ckcnt` the number of checksum bytes stored so far, 0 to 3 (R28); `complete` (R29); `valid` (R30).

The model's: `cfg` the implementation parameter `MAXLEN`, which no operation writes (R7, log 1); `inputs` the merged
order of the operations the agents will present, oldest first (R3, R4, log 2); `resp` the response of the last operation,
an output of the block (R12, log 3). -/
structure State where
  cfg      : Config
  gcrc     : CrcWord
  fcrc     : CrcWord
  fst      : Fst
  buf      : Memory
  len      : Nat
  ckf      : Memory
  ckcnt    : Fin 4
  complete : Bool
  valid    : Bool
  resp     : Response
  inputs   : List Input
deriving DecidableEq, Repr

/-- Why a step stops with a fault. The block has no traps (R200): each of these is a stop of the model where the spec says
a value or an address does not exist, and no state that well-formed operations reach from reset raises one. -/
inductive Fault where
  /-- Raised by `FRM.RDB`, `EXT.FIELD`, `EXT.DATE`, `EXT.TIME` in a state where an entry of `buf` below `len` holds no value
  (R25, R52). Safe: the spec gives such a read no value. -/
  | bufferHasNoValue
  /-- Raised by `RX.CKE` and `FRM.RDCK` in a state where one of the four entries of `ckf` holds no value (R27, R36). Safe:
  the spec gives such a read no value. -/
  | checksumHasNoValue
  /-- Raised by `RX.DATA` where `len` is not below `MAXLEN`, which its row of R73 excludes: the index does not exist (R54).
  Safe: the model stops. -/
  | outsideBuffer (index : Nat)
deriving DecidableEq, Repr

/-- Why a step has no meaning. -/
inductive Refusal where
  /-- Raised by `exec` for an operation that has no meaning yet (none is left). Safe: the model stops. -/
  | notModelled (mnemonic : String)
  /-- Raised by `step` for a record whose used byte-string operand is longer than `PATMAX`: it is no format-`H` record
  (R80, D12; log 8). Safe: the model stops. -/
  | malformedRecord (why : DecodeError)
deriving DecidableEq, Repr

/-- The state after `RESET` on a block with capacity `cfg` (R36): no entry of `buf` or `ckf` holds a value. -/
def State.resetOf (cfg : Config) : State where
  cfg := cfg
  gcrc := 0x0000#16
  fcrc := 0x0000#16
  fst := .idle
  buf := []
  len := 0
  ckf := []
  ckcnt := 0
  complete := false
  valid := false
  resp := .none
  inputs := []

/-- The machine right after reset (R36, R230), on the implementation at hand. -/
def State.reset : State := State.resetOf Config.implementation

end Sys2Proof.Machine
end

