-- ==== Sys2Proof/Machine/Ops.lean ====
section
/-! DEFINITION. Sys2Proof/Machine/Ops.lean: the operations every meaning shares: reading and writing the byte arrays, the
response of an operation, the error response (this block's only form of an exception: R10, R200, R203, R209), and taking
the next operation of the merged order. -/

namespace Sys2Proof.Machine

/-- How one operation ends. -/
abbrev Result := Host.Outcome State Fault Refusal

/-! ## Byte arrays (20_memory.md R50 to R55) -/

/-- What an entry that is not listed reads as: no value (R25, R36; log 4). -/
def Memory.unlisted : Option Byte := none

/-- The value entry `i` holds. -/
def Memory.read : Memory → Nat → Option Byte
  | [], _ => Memory.unlisted
  | (j, v) :: rest, i => if i = j then some v else Memory.read rest i

/-- `m[i] <- v` (R10 `MemWrite`), keeping the entries in rising order. -/
def Memory.write : Memory → Nat → Byte → Memory
  | [], i, v => [(i, v)]
  | (j, w) :: rest, i, v =>
    if i < j then (i, v) :: (j, w) :: rest
    else if i = j then (i, v) :: rest
    else (j, w) :: Memory.write rest i v

/-- The canonical form: indices strictly rising. (No entry can equal what an unlisted one reads as, which is no value.) -/
def Memory.wf : Memory → Bool
  | [] => true
  | (i, _) :: rest => rest.all (fun c => decide (i < c.1)) && Memory.wf rest

/-- The `n` bytes from entry `i` on, if each holds a value. -/
def Memory.slice (m : Memory) : Nat → Nat → Option ByteString
  | _, 0 => some []
  | i, n + 1 =>
    match Memory.read m i, Memory.slice m (i + 1) n with
    | some b, some rest => some (b :: rest)
    | _, _ => none

/-- The four characters of a checksum field, if each holds a value (R27). -/
def Memory.quad (m : Memory) : Option Quad :=
  match Memory.read m 0, Memory.read m 1, Memory.read m 2, Memory.read m 3 with
  | some c0, some c1, some c2, some c3 => some ⟨c0, c1, c2, c3⟩
  | _, _, _, _ => none

/-- The payload `buf[0 .. len-1]` (10_state.md R38), if every entry holds a value. -/
def State.payload (s : State) : Option ByteString := Memory.slice s.buf 0 s.len

/-! ## Responses (00_scope.md R10, R12) -/

/-- `respond X`: the operation ends with response `X`. -/
def respond (x : Response) (s : State) : State := { s with resp := x }

/-- `raise E`: the operation ends with `Err(E)` and writes no state (R10, R203). Nothing is entered, so there is nothing to
return from (R209). -/
def raise (e : ErrCode) (s : State) : Result := .next (respond (.err e) s)

/-! ## Taking the next operation (00_scope.md R3) -/

/-- What decoding a stream byte depends on (30_encoding.md R73). A `len` at or above `MAXLEN` is a full buffer (log 6). -/
def decodeMode (s : State) : DecodeMode where
  fst := s.fst
  room := decide (s.len < s.cfg.maxlen)
  last := decide (s.ckcnt = 3)

/-- The oldest operation still to come, and the state without it; none when no agent has presented one (R4). -/
def fetch (s : State) : Option (Input × State) :=
  match s.inputs with
  | [] => none
  | inp :: rest => some (inp, { s with inputs := rest })

end Sys2Proof.Machine
end

