-- ==== Sys2Proof/Machine/Operands.lean ====
section
/-! DEFINITION. Sys2Proof/Machine/Operands.lean: the text forms the operations read and write: hexadecimal checksum text
(30_encoding.md R75, R76), decimal digits (00_scope.md R11, R78), and the substring search `find` (R9). -/

namespace Sys2Proof.Machine

/-! ## Checksum text -/

/-- `hexchar(n)` for a nibble (R75): `0x30 + n` up to 9, `0x41 + (n - 10)` from 10 on. -/
def hexchar (n : BitVec 4) : Byte :=
  if n.toNat ≤ 9 then BitVec.ofNat 8 (0x30 + n.toNat) else BitVec.ofNat 8 (0x41 + (n.toNat - 10))

/-- `hex4(v)`: four characters, `h[k] = hexchar(v[15-4k : 12-4k])` (R75). -/
def hex4 (v : BitVec 16) : Quad where
  c0 := hexchar (v.extractLsb' 12 4)
  c1 := hexchar (v.extractLsb' 8 4)
  c2 := hexchar (v.extractLsb' 4 4)
  c3 := hexchar (v.extractLsb' 0 4)

/-- `upper(b)`: `b - 0x20` when `0x61 <= b <= 0x7A`, else `b` (R76). -/
def upper (b : Byte) : Byte :=
  if 0x61 ≤ b.toNat ∧ b.toNat ≤ 0x7A then b - 0x20#8 else b

/-- `cmpci(h, c)`: equality of the four characters without regard to letter case (R76). -/
def cmpci (h c : Quad) : Bool :=
  upper c.c0 == upper h.c0 && upper c.c1 == upper h.c1 && upper c.c2 == upper h.c2 && upper c.c3 == upper h.c3

/-! ## Decimal text -/

/-- `isdigit(b)` (R11). -/
def isDigit (b : Byte) : Bool := decide (0x30 ≤ b.toNat ∧ b.toNat ≤ 0x39)

/-- `digit(b)` (R11). -/
def digit (b : Byte) : Nat := b.toNat - 0x30

/-- The decimal point `.` (R11). -/
def pointByte : Byte := 0x2E#8

/-- The base-10 value of a digit string, most significant digit first, 0 when empty, accumulated exactly as
`n = n * 10 + digit` (R78, 42_extractor.md R159). -/
def decimalValue (ds : ByteString) : Nat := ds.foldl (fun n d => n * 10 + digit d) 0

/-! ## Substring search -/

/-- The least offset at which `n` begins in `h`, counted from `i`. -/
def findFrom (n : ByteString) : ByteString → Nat → Option Nat
  | [], i => if n.isPrefixOf [] then some i else none
  | x :: xs, i => if n.isPrefixOf (x :: xs) then some i else findFrom n xs (i + 1)

/-- `find(h, n, from)`: the least index `i >= from` at which `n` occurs in `h`; none when `from > |h|` (R9). -/
def find (h n : ByteString) (start : Nat) : Option Nat :=
  if start ≤ h.length then findFrom n (h.drop start) start else none

end Sys2Proof.Machine
end

