-- ==== Sys2Proof/Machine/Flags.lean ====
section
/-! DEFINITION. Sys2Proof/Machine/Flags.lean: the numbers behind the flags: the codes of `fst` (10_state.md R24), the status
word `STAT` and `LEN` (R34), the error codes (30_encoding.md R83), and the value of the flag `valid` (41_framer.md R128). -/

namespace Sys2Proof.Machine

/-- `code(fst)`: `IDLE = 0`, `COLLECT = 1`, `RDCK = 2` (R24). -/
def fstCode : Fst → BitVec 2
  | .idle => 0#2
  | .collect => 1#2
  | .rdck => 2#2

/-- The number of an error code (R83). -/
def errNumber : ErrCode → Nat
  | .notReady => 1
  | .badField => 2
  | .overflow => 3
  | .badIndex => 4
  | .badOp => 5

/-- The status word (R34): `[7:6]` zero, `[5:4]` CKCNT, `[3]` VALID, `[2]` COMPLETE, `[1:0]` FST. -/
def statWord (s : State) : BitVec 8 :=
  0#2 ++ BitVec.ofNat 2 s.ckcnt.val ++ BitVec.ofBool s.valid ++ BitVec.ofBool s.complete ++ fstCode s.fst

/-- `LEN = zext_16(len)` (R34). -/
def lenWord (s : State) : BitVec 16 := BitVec.ofNat 16 s.len

/-- What `valid` becomes when the four characters `c` have followed a capture whose CRC is `crc` (R127, R128). -/
def validFlag (crc : CrcWord) (c : Quad) : Bool := cmpci (hex4 crc) c

end Sys2Proof.Machine
end

