-- ==== Sys2Proof/Machine/Crc.lean ====
section
/-! DEFINITION. Sys2Proof/Machine/Crc.lean: unit `CRC` (40_crc.md): the CRC-16 function and the host operations `CRC.CLR`,
`CRC.UPD`, `CRC.RD`, `CRC.HEX`. -/

namespace Sys2Proof.Machine

/-! ## The function (R100 to R102) -/

/-- `POLY` (00_scope.md R7). -/
def poly : CrcWord := 0xA001#16

/-- `CRCINIT` (00_scope.md R7). -/
def crcInit : CrcWord := 0x0000#16

/-- `crc_bit(c, d)`: shift towards bit 0, with the feedback of bit 0 and the data bit (R100). -/
def crcBit (c : CrcWord) (d : Bool) : CrcWord :=
  (c >>> 1) ^^^ (if c.getLsbD 0 ^^ d then poly else 0x0000#16)

/-- `crc_byte(c, b)`: the eight bits of `b` in turn, bit 0 first (R101). -/
def crcByte (c : CrcWord) (b : Byte) : CrcWord :=
  [0, 1, 2, 3, 4, 5, 6, 7].foldl (fun c k => crcBit c (b.getLsbD k)) c

/-- `crc16(s)` (R102): no final XOR, no final bit reversal. -/
def crc16 (s : ByteString) : CrcWord := s.foldl crcByte crcInit

/-! ## The host operations -/

/-- `CRC.CLR` (R104). -/
def execCrcClr (s : State) : Result := .next (respond .none { s with gcrc := crcInit })

/-- `CRC.UPD b` (R105). -/
def execCrcUpd (b : Byte) (s : State) : Result := .next (respond .none { s with gcrc := crcByte s.gcrc b })

/-- `CRC.RD` (R106). -/
def execCrcRd (s : State) : Result := .next (respond (.word s.gcrc) s)

/-- `CRC.HEX` (R107). -/
def execCrcHex (s : State) : Result := .next (respond (.hex (hex4 s.gcrc)) s)

end Sys2Proof.Machine
end

