-- ==== Sys2Proof/Machine/Framer.lean ====
section
/-! DEFINITION. Sys2Proof/Machine/Framer.lean: unit `FRM`, the seven decoded forms of `RX b` (41_framer.md R121 to R127). A
meaning is the pseudocode of its rule; that its row of 30_encoding.md R73 applies is the decoder's doing (log 7). -/

namespace Sys2Proof.Machine

/-- The buffer cleared, with the frame-start byte at index 0 as its only entry, and `fcrc`, `len` to match (R121,
10_state.md R25: entries at `len` and above hold no value). -/
def restart (s : State) : State :=
  { s with buf := Memory.write [] 0 sofByte, len := 1, fcrc := crcByte crcInit sofByte }

/-- One more captured byte: `buf[len] <- b`, `fcrc <- crc_byte(fcrc, b)`, `len <- len + 1` (R123, R125). -/
def append (b : Byte) (s : State) : State :=
  { s with buf := Memory.write s.buf s.len b, fcrc := crcByte s.fcrc b, len := s.len + 1 }

/-- `RX.SOF` (R121). -/
def execRxSof (s : State) : Result :=
  .next (respond .none { restart s with ckcnt := 0, complete := false, valid := false, fst := .collect })

/-- `RX.SKIP` (R122): no state is written. -/
def execRxSkip (_b : Byte) (s : State) : Result := .next (respond .none s)

/-- `RX.CKM` (R125): the marker is stored if there is room; checksum reading begins in either case. -/
def execRxCkm (s : State) : Result :=
  .next (respond .none
    { (if s.len < s.cfg.maxlen then append ckmByte s else s) with ckcnt := 0, fst := .rdck })

/-- `RX.DATA` (R123). Index `MAXLEN` does not exist (20_memory.md R54). -/
def execRxData (b : Byte) (s : State) : Result :=
  if s.len < s.cfg.maxlen then .next (respond .none (append b s)) else .fault (.outsideBuffer s.len)

/-- `RX.DROP` (R124): no state is written. -/
def execRxDrop (_b : Byte) (s : State) : Result := .next (respond .none s)

/-- `RX.CKB` (R126): `ckf[ckcnt] <- b`, `ckcnt <- ckcnt + 1`. -/
def execRxCkb (b : Byte) (s : State) : Result :=
  .next (respond .none { s with ckf := Memory.write s.ckf s.ckcnt.val b, ckcnt := s.ckcnt + 1 })

/-- `RX.CKE` (R127): the fourth character is captured, the frame is complete, and `valid` is the comparison of R128. -/
def execRxCke (b : Byte) (s : State) : Result :=
  match Memory.quad (Memory.write s.ckf 3 b) with
  | none => .fault .checksumHasNoValue
  | some c =>
    .next (respond (.done (validFlag s.fcrc c))
      { s with ckf := Memory.write s.ckf 3 b, complete := true, valid := validFlag s.fcrc c, ckcnt := 0,
               fst := .idle })

end Sys2Proof.Machine
end

