-- ==== Sys2Proof/Machine/HostAccess.lean ====
section
/-! DEFINITION. Sys2Proof/Machine/HostAccess.lean: the host's access to the framer (43_host_access.md R180 to R183). -/

namespace Sys2Proof.Machine

/-- `FRM.STAT` (R180). -/
def execFrmStat (s : State) : Result := .next (respond (.stat (statWord s) (lenWord s)) s)

/-- `FRM.RDB idx` (R181): `BADINDEX` when `idx >= len`; `valid` and `complete` are not tested. -/
def execFrmRdb (idx : BitVec 16) (s : State) : Result :=
  if s.len ≤ idx.toNat then raise .badIndex s
  else
    match Memory.read s.buf idx.toNat with
    | some v => .next (respond (.byte v) s)
    | none => .fault .bufferHasNoValue

/-- `FRM.RDCK` (R182): `NOTREADY` when `complete = 0`; the characters as received. -/
def execFrmRdck (s : State) : Result :=
  if s.complete then
    match Memory.quad s.ckf with
    | some c => .next (respond (.hex c) s)
    | none => .fault .checksumHasNoValue
  else raise .notReady s

/-- A reserved operation code (R183). -/
def execHReserved (_hop : BitVec 4) (s : State) : Result := raise .badOp s

end Sys2Proof.Machine
end

