-- ==== Sys2Proof/Machine/Extractor.lean ====
section
/-! DEFINITION. Sys2Proof/Machine/Extractor.lean: unit `EXT` (42_extractor.md): the pure functions `decode` (R150 to R152)
and `fix6` (R154), and the host operations `EXT.FIELD`, `EXT.DATE`, `EXT.TIME`. The unit has no state (10_state.md R37). -/

namespace Sys2Proof.Machine

/-- The response that carries a number which fits in `RESW = 32` bits (00_scope.md R7, R12). -/
def valResponse (n : Nat) : Response := .val (BitVec.ofNat 32 n)

/-- Reading a region as a number (R152), the tests in the order written there. -/
def readNumber (r : ByteString) : Response :=
  if r = [] then valResponse 0
  else if r.any (fun b => !(isDigit b || b == pointByte)) then .err .badField
  else if 1 < r.count pointByte then .err .badField
  else if 2 ^ 32 ≤ decimalValue (r.filter (fun b => b != pointByte)) then .err .overflow
  else valResponse (decimalValue (r.filter (fun b => b != pointByte)))

/-- Locating the region (R150): strictly between the first `tag` and the first `unit` at or after its end; none when
the field is ABSENT. -/
def locate (p tag unit : ByteString) : Option ByteString :=
  match find p tag 0 with
  | none => none
  | some t =>
    match find p unit (t + tag.length) with
    | none => none
    | some u => some ((p.drop (t + tag.length)).take (u - (t + tag.length)))

/-- `decode(P, tag, unit)` (R151): an absent field reads 0. -/
def decodeField (p tag unit : ByteString) : Response :=
  match locate p tag unit with
  | none => valResponse 0
  | some r => readNumber r

/-- `fix6(P, tag, off)` (R154): the six digits at offset `off` after the first `tag`. -/
def fix6 (p tag : ByteString) (off : Nat) : Response :=
  match find p tag 0 with
  | none => valResponse 0
  | some t =>
    if p.length < t + tag.length + off + 6 then .err .badField
    else if ((p.drop (t + tag.length + off)).take 6).any (fun b => !isDigit b) then .err .badField
    else valResponse (decimalValue ((p.drop (t + tag.length + off)).take 6))

/-- An extraction (R153, R155, R156): `NOTREADY` unless `valid = 1`, before anything is searched (60_exceptions.md R208
item 3); otherwise the answer `f` gives on the payload. -/
def extract (f : ByteString → Response) (s : State) : Result :=
  if s.valid then
    match s.payload with
    | some p => .next (respond (f p) s)
    | none => .fault .bufferHasNoValue
  else raise .notReady s

/-- `EXT.FIELD tag, unit` (R153). -/
def execExtField (tag unit : ByteString) (s : State) : Result := extract (fun p => decodeField p tag unit) s

/-- `EXT.DATE tag` (R155). -/
def execExtDate (tag : ByteString) (s : State) : Result := extract (fun p => fix6 p tag 0) s

/-- `EXT.TIME tag` (R156). -/
def execExtTime (tag : ByteString) (s : State) : Result := extract (fun p => fix6 p tag 6) s

end Sys2Proof.Machine
end

