-- ==== Sys2Proof/Machine/Reset.lean ====
section
/-! DEFINITION. Sys2Proof/Machine/Reset.lean: the reset event (70_reset_and_hazards.md R230). -/

namespace Sys2Proof.Machine

/-- `RESET` (R230): every register takes its value of 10_state.md R36, and no entry of `buf` or `ckf` holds a value. The
parameter `MAXLEN` and the operations still to come are not the block's state and stay (log 11). -/
def execReset (s : State) : Result :=
  .next (respond .none
    { s with gcrc := 0x0000#16, fcrc := 0x0000#16, fst := .idle, len := 0, ckcnt := 0, complete := false,
             valid := false, buf := [], ckf := [] })

end Sys2Proof.Machine
end

