-- ==== Sys2Proof/Machine/Dispatch.lean ====
section
/-! DEFINITION. Sys2Proof/Machine/Dispatch.lean: one arm per operation, each one call of its meaning. -/

namespace Sys2Proof.Machine

def exec (i : Instr) (s : State) : Host.Outcome State Fault Refusal :=
  match i with
  -- format S (30_encoding.md R73)
  | .rxSof => Sys2Proof.Machine.execRxSof s
  | .rxSkip b => Sys2Proof.Machine.execRxSkip b s
  | .rxCkm => Sys2Proof.Machine.execRxCkm s
  | .rxData b => Sys2Proof.Machine.execRxData b s
  | .rxDrop b => Sys2Proof.Machine.execRxDrop b s
  | .rxCkb b => Sys2Proof.Machine.execRxCkb b s
  | .rxCke b => Sys2Proof.Machine.execRxCke b s
  -- format H (R81, R82)
  | .crcClr => Sys2Proof.Machine.execCrcClr s
  | .crcUpd b => Sys2Proof.Machine.execCrcUpd b s
  | .crcRd => Sys2Proof.Machine.execCrcRd s
  | .crcHex => Sys2Proof.Machine.execCrcHex s
  | .frmStat => Sys2Proof.Machine.execFrmStat s
  | .frmRdb idx => Sys2Proof.Machine.execFrmRdb idx s
  | .frmRdck => Sys2Proof.Machine.execFrmRdck s
  | .extField tag unit => Sys2Proof.Machine.execExtField tag unit s
  | .extDate tag => Sys2Proof.Machine.execExtDate tag s
  | .extTime tag => Sys2Proof.Machine.execExtTime tag s
  | .hReserved hop => Sys2Proof.Machine.execHReserved hop s
  -- the event (R70)
  | .reset => Sys2Proof.Machine.execReset s

end Sys2Proof.Machine
end

