-- ==== Sys2Proof/Machine/Step.lean ====
section
/-! DEFINITION. Sys2Proof/Machine/Step.lean: one step is one operation of the merged order (00_scope.md R3), or nothing
when no agent presents one: an idle block keeps its state (60_exceptions.md R217). -/

namespace Sys2Proof.Machine

/-- One step: take the oldest operation still to come, decode it under the state it finds (30_encoding.md R73), run it. -/
def step (s : State) : Host.Outcome State Fault Refusal :=
  match fetch s with
  | none => .next s
  | some (inp, s') =>
    match decode (decodeMode s) inp with
    | .ok i => exec i s'
    | .error e => .refused (.malformedRecord e)

/-- `s` with the operation a table word stands for presented next (log 9). A stream byte other than `/` is a given row only
in that row's state of the framer (R73: `fst` takes the place of a program counter, 10_state.md R32), so `fst` is set to it. -/
def State.withFetchWord (s : State) (nbits w : Nat) : State :=
  match tableInput nbits w with
  | none => s
  | some (.rx b) =>
    { s with inputs := .rx b :: s.inputs, fst := if b = sofByte then s.fst else (tableMode (.rx b)).fst }
  | some inp => { s with inputs := inp :: s.inputs }

end Sys2Proof.Machine
end

