-- ==== Sys2Proof/Safety.lean ====
section
/-! DEFINITION. Sys2Proof/Safety.lean: the terms in which claims about the block are stated: the nine items of state by
themselves (10_state.md R20), the invariant of R23 and R31, runs of several operations, and the spec's own wording of a
first occurrence (00_scope.md R9) and of a decimal value (30_encoding.md R78). -/

namespace Sys2Proof.Machine

/-! ## The block apart from the model's own fields -/

/-- The nine items of R20 and nothing else. -/
structure Block where
  gcrc     : CrcWord
  fcrc     : CrcWord
  fst      : Fst
  buf      : Memory
  len      : Nat
  ckf      : Memory
  ckcnt    : Fin 4
  complete : Bool
  valid    : Bool
deriving DecidableEq, Repr

/-- The nine items as a state holds them. -/
def State.block (s : State) : Block where
  gcrc := s.gcrc
  fcrc := s.fcrc
  fst := s.fst
  buf := s.buf
  len := s.len
  ckf := s.ckf
  ckcnt := s.ckcnt
  complete := s.complete
  valid := s.valid

/-- Two states agree on the framer: all of R20 but `gcrc`, and the parameter `MAXLEN`. -/
def SameFramer (s t : State) : Prop :=
  t.cfg = s.cfg ∧ { t.block with gcrc := s.gcrc } = s.block

/-! ## The invariant (R23, R25 to R28, R31) -/

/-- What holds after every operation, for every sequence of operations from `RESET` (R31). The last three clauses
strengthen item 8 for `COLLECT`, where the marker has not been seen, so that a step keeps it. -/
structure Inv (s : State) : Prop where
  /-- Both byte arrays are in canonical form. -/
  buf_wf : Memory.wf s.buf = true
  ckf_wf : Memory.wf s.ckf = true
  /-- R26. -/
  len_le : s.len ≤ s.cfg.maxlen
  /-- R25: exactly the entries below `len` hold a value. -/
  buf_holds : ∀ i, (Memory.read s.buf i).isSome = decide (i < s.len)
  /-- R27, R50: positions 0 to 3, filled in order of arrival. -/
  ckf_positions : ∀ i, 4 ≤ i → Memory.read s.ckf i = none
  ckf_holds : ∀ i, i < s.ckcnt.val → (Memory.read s.ckf i).isSome = true
  /-- R31 item 1. -/
  valid_complete : s.valid = true → s.complete = true
  /-- R31 item 2. -/
  complete_idle : s.complete = true → s.fst = .idle
  /-- R31 item 3. -/
  busy : s.fst ≠ .idle → s.complete = false ∧ s.valid = false ∧ 1 ≤ s.len
  /-- R31 item 4. -/
  start_byte : 1 ≤ s.len → Memory.read s.buf 0 = some 0x2F#8
  /-- R31 item 5, R28. -/
  ckcnt_zero : s.fst ≠ .rdck → s.ckcnt = 0
  /-- R23. -/
  fcrc_payload : ∃ p, s.payload = some p ∧ s.fcrc = crc16 p
  /-- R31 item 6. -/
  complete_checked : s.complete = true → ∃ p c, s.payload = some p ∧ Memory.quad s.ckf = some c ∧
    s.valid = cmpci (hex4 (crc16 p)) c
  /-- R31 item 8. -/
  start_only_first : ∀ i, 1 ≤ i → Memory.read s.buf i ≠ some 0x2F#8
  marker_only_last : ∀ i, i + 1 < s.len → Memory.read s.buf i ≠ some 0x21#8
  no_marker_yet : s.fst = .collect → ∀ i, Memory.read s.buf i ≠ some 0x21#8

/-- Every operation still to come is one an agent can present (R80). -/
def InputsFit (s : State) : Prop := ∀ inp ∈ s.inputs, inp.wellFormed = true

/-! ## Runs -/

/-- `k` steps, stopping at the first fault or refusal. -/
def run : Nat → State → Result
  | 0, s => .next s
  | k + 1, s =>
    match step s with
    | .next t => run k t
    | .fault r => .fault r
    | .refused r => .refused r

/-- The operation is a host's (R4). -/
def isHost : Input → Bool
  | .host _ => true
  | _ => false

/-- Neither `CRC.CLR` nor `RESET`: the operation does not start `gcrc` anew (R21). -/
def keepsGcrc : Input → Bool
  | .host r => r.hop != 0x1#4
  | .reset => false
  | .rx _ => true

/-- The bytes that the `CRC.UPD` operations among these supply, in order. -/
def updBytes : List Input → ByteString
  | [] => []
  | .host r :: rest => if r.hop = 0x2#4 then r.b :: updBytes rest else updBytes rest
  | _ :: rest => updBytes rest

/-! ## The spec's wording of operands -/

/-- `i + |n| <= |h|` and `h[i .. i+|n|-1] = n` (R9). -/
def OccursAt (h n : ByteString) (i : Nat) : Prop :=
  i + n.length ≤ h.length ∧ (h.drop i).take n.length = n

/-- `i` is the least index at or above `start` at which `n` occurs in `h` (R9). -/
def FirstAt (h n : ByteString) (start i : Nat) : Prop :=
  start ≤ i ∧ OccursAt h n i ∧ ∀ j, start ≤ j → j < i → ¬ OccursAt h n j

/-- `n` occurs nowhere in `h` at or above `start` (R9 `none`). -/
def Absent (h n : ByteString) (start : Nat) : Prop := ∀ j, start ≤ j → ¬ OccursAt h n j

/-- The sum over `j` of `digit(d[j]) * 10^(n-1-j)` (R78); 0 for the empty string. -/
def digitSum : ByteString → Nat
  | [] => 0
  | d :: ds => digit d * 10 ^ ds.length + digitSum ds

/-- `c` is the digit character `h` or, for a letter `A` to `F`, its lower-case form (R76). -/
def SameDigit (h c : Byte) : Prop :=
  c = h ∨ (0x41 ≤ h.toNat ∧ h.toNat ≤ 0x46 ∧ c = h + 0x20#8)

/-- The four characters in order of arrival. -/
def quadList (q : Quad) : ByteString := [q.c0, q.c1, q.c2, q.c3]

/-- Bytewise XOR of two strings of one length (40_crc.md R110). -/
def xorStrings (s t : ByteString) : ByteString := List.zipWith (fun a b => a ^^^ b) s t

end Sys2Proof.Machine
end

