-- ==== Sys2Proof/Certificates/Slice0/Obligations.lean ====
section
/-! DEFINITION. Sys2Proof/Certificates/Slice0/Obligations.lean: the statements about the model, each with the rules of
spec/ it formalises. The nine items of 10_state.md R20 are read through `State.block`; a statement that also speaks of the
model's own fields (`cfg`, `inputs`; log 1, log 2) says so. -/

open Sys2Proof Sys2Proof.Machine

/-! ## Reset -/

/-- 10_state.md R36: the value of every register after `RESET`, and no entry of `buf` or `ckf` holds a value. -/
def Obligations.ResetStateHoldsTheSpecifiedValues : Prop :=
  State.reset.gcrc = 0x0000#16 ∧ State.reset.fcrc = 0x0000#16 ∧ State.reset.fst = .idle ∧ State.reset.len = 0 ∧
  State.reset.ckcnt = 0 ∧ State.reset.complete = false ∧ State.reset.valid = false ∧
  (∀ i, Memory.read State.reset.buf i = none) ∧ (∀ i, Memory.read State.reset.ckf i = none)

/-- 70_reset_and_hazards.md R230: `RESET` is accepted in every state, answers `None`, and every register takes its value
of R36. -/
def Obligations.ResetEventGivesTheResetValues : Prop :=
  ∀ s : State, ∃ t, exec .reset s = .next t ∧ t.resp = .none ∧
    t.gcrc = 0x0000#16 ∧ t.fcrc = 0x0000#16 ∧ t.fst = .idle ∧ t.len = 0 ∧ t.ckcnt = 0 ∧
    t.complete = false ∧ t.valid = false ∧
    (∀ i, Memory.read t.buf i = none) ∧ (∀ i, Memory.read t.ckf i = none)

/-! ## The CRC-16 generator -/

/-- 40_crc.md R104: `CRC.CLR` is always accepted, zeroes `gcrc` and touches nothing else. -/
def Obligations.CrcClrZeroesGcrc : Prop :=
  ∀ s : State, ∃ t, exec .crcClr s = .next t ∧ t.resp = .none ∧ t.block = { s.block with gcrc := 0x0000#16 }

/-- 40_crc.md R100, R105: `CRC.UPD b` feeds the eight bits of `b`, bit 0 first, through the shift register; `c k` is the
register after `k` bits. -/
def Obligations.CrcUpdFeedsEightBits : Prop :=
  ∀ (s : State) (b : Byte) (c : Nat → CrcWord), c 0 = s.gcrc →
    (∀ k, k < 8 →
      c (k + 1) = (c k >>> 1) ^^^ (if ((c k).getLsbD 0 ^^ b.getLsbD k) = true then 0xA001#16 else 0x0000#16)) →
    ∃ t, exec (.crcUpd b) s = .next t ∧ t.resp = .none ∧ t.block = { s.block with gcrc := c 8 }

/-- 40_crc.md R106, R107: `CRC.RD` and `CRC.HEX` are always accepted, answer `gcrc` as a number and as text, and write
nothing. -/
def Obligations.CrcReadsAnswerGcrc : Prop :=
  ∀ s : State,
    (∃ t, exec .crcRd s = .next t ∧ t.resp = .word s.gcrc ∧ t.block = s.block) ∧
    (∃ t, exec .crcHex s = .next t ∧ t.resp = .hex (hex4 s.gcrc) ∧ t.block = s.block)

/-- 40_crc.md R101, R103 (both marked by the spec as derived): the usual software form of one byte, the table form, the
eight table entries, and that they generate the table. -/
def Obligations.CrcByteSoftwareAndTableForms : Prop :=
  (∀ (c : CrcWord) (b : Byte) (r : Nat → CrcWord), r 0 = c ^^^ b.setWidth 16 →
    (∀ k, k < 8 → r (k + 1) = if (r k).getLsbD 0 = true then (r k >>> 1) ^^^ 0xA001#16 else r k >>> 1) →
    crcByte c b = r 8) ∧
  (∀ (c : CrcWord) (b : Byte),
    crcByte c b = (c >>> 8) ^^^ crcByte 0x0000#16 ((c ^^^ b.setWidth 16).setWidth 8)) ∧
  (∀ m n : Byte, crcByte 0x0000#16 (m ^^^ n) = crcByte 0x0000#16 m ^^^ crcByte 0x0000#16 n) ∧
  crcByte 0x0000#16 1#8 = 0xC0C1#16 ∧ crcByte 0x0000#16 2#8 = 0xC181#16 ∧ crcByte 0x0000#16 4#8 = 0xC301#16 ∧
  crcByte 0x0000#16 8#8 = 0xC601#16 ∧ crcByte 0x0000#16 16#8 = 0xCC01#16 ∧ crcByte 0x0000#16 32#8 = 0xD801#16 ∧
  crcByte 0x0000#16 64#8 = 0xF001#16 ∧ crcByte 0x0000#16 128#8 = 0xA001#16

/-- 40_crc.md R110 (derived): leading zero bytes do not change a zero register, a trailing one can change the value, and
the function is linear over XOR. -/
def Obligations.CrcOfStringsIsLinear : Prop :=
  (∀ s : ByteString, crc16 (0x00#8 :: s) = crc16 s) ∧
  (∃ s : ByteString, crc16 (s ++ [0x00#8]) ≠ crc16 s) ∧
  (∀ s t : ByteString, s.length = t.length → crc16 (xorStrings s t) = crc16 s ^^^ crc16 t)

/-- 40_crc.md R108, 10_state.md R21, 70_reset_and_hazards.md R233 (derived): over any run that holds no `CRC.CLR` and no
`RESET`, `gcrc` is the fold of `crc_byte` over the bytes of the `CRC.UPD` operations, whatever else was interleaved; so
after a `CRC.CLR` it is `crc16` of those bytes. The CRC of a string continues from the CRC of its front part. -/
def Obligations.GcrcIsTheCrcOfTheSuppliedBytes : Prop :=
  (∀ (n : Nat) (s t : State), run n s = .next t → (∀ inp ∈ s.inputs.take n, keepsGcrc inp = true) →
    t.gcrc = (updBytes (s.inputs.take n)).foldl crcByte s.gcrc) ∧
  (∀ (n : Nat) (s t : State) (rest : List Input), s.inputs = encode .crcClr :: rest → run (n + 1) s = .next t →
    (∀ inp ∈ rest.take n, keepsGcrc inp = true) → t.gcrc = crc16 (updBytes (rest.take n))) ∧
  (∀ u v : ByteString, v.foldl crcByte (crc16 u) = crc16 (u ++ v))

/-! ## Checksum text -/

/-- 30_encoding.md R75: `hex4(v)` is four characters, most significant nibble first, digits `0` to `9` and upper-case `A`
to `F`, leading zeros kept. -/
def Obligations.HexTextOfAWord : Prop :=
  ∀ (v : BitVec 16) (k : Nat) (h : k < 4),
    ((quadList (hex4 v))[k]'h).toNat =
      (if v.toNat / 16 ^ (3 - k) % 16 ≤ 9 then 0x30 + v.toNat / 16 ^ (3 - k) % 16
       else 0x41 + (v.toNat / 16 ^ (3 - k) % 16 - 10))

/-- 30_encoding.md R76: `upper` and `cmpci`, and what `cmpci(hex4(v), c)` comes to: every character of `c` is the upper-case
or lower-case form of the digit of `v`. -/
def Obligations.ChecksumComparisonIgnoresLetterCase : Prop :=
  (∀ b : Byte, upper b = if 0x61 ≤ b.toNat ∧ b.toNat ≤ 0x7A then b - 0x20#8 else b) ∧
  (∀ h c : Quad, cmpci h c = true ↔ (quadList c).map upper = (quadList h).map upper) ∧
  (∀ (v : BitVec 16) (c : Quad), cmpci (hex4 v) c = true ↔
    SameDigit (hex4 v).c0 c.c0 ∧ SameDigit (hex4 v).c1 c.c1 ∧ SameDigit (hex4 v).c2 c.c2 ∧
    SameDigit (hex4 v).c3 c.c3)

/-! ## The framer -/

/-- 41_framer.md R121: the frame-start byte is accepted in any state, is stored at index 0, and restarts the frame; `ckf`
and `gcrc` are not written. -/
def Obligations.RxSofRestartsTheFrame : Prop :=
  ∀ s : State, ∃ t, exec .rxSof s = .next t ∧ t.resp = .none ∧ Memory.read t.buf 0 = some 0x2F#8 ∧
    t.block = { s.block with buf := t.buf, len := 1, fcrc := 0xDC41#16, ckcnt := 0, complete := false,
                             valid := false, fst := .collect }

/-- 41_framer.md R120, 10_state.md R25, 20_memory.md R56 (derived; the model's reading, log 4): after a restart no entry of
`buf` but index 0 holds a value, whatever the buffer held. -/
def Obligations.RxSofEmptiesTheRestOfTheBuffer : Prop :=
  ∀ s t : State, exec .rxSof s = .next t → ∀ i, 1 ≤ i → Memory.read t.buf i = none

/-- 41_framer.md R122, R124: a skipped byte and a dropped byte are accepted, answer `None`, and write nothing. -/
def Obligations.SkippedAndDroppedBytesWriteNothing : Prop :=
  ∀ (s : State) (b : Byte),
    (∃ t, exec (.rxSkip b) s = .next t ∧ t.resp = .none ∧ t.block = s.block) ∧
    (∃ t, exec (.rxDrop b) s = .next t ∧ t.resp = .none ∧ t.block = s.block)

/-- 41_framer.md R123: with room, an ordinary byte is stored at index `len` and nowhere else, folded into `fcrc`, and
`len` advances by one. -/
def Obligations.RxDataAppendsOneByte : Prop :=
  ∀ (s : State) (b : Byte), s.len < s.cfg.maxlen →
    ∃ t, exec (.rxData b) s = .next t ∧ t.resp = .none ∧
      (∀ a, Memory.read t.buf a = if a = s.len then some b else Memory.read s.buf a) ∧
      t.block = { s.block with buf := t.buf, fcrc := crcByte s.fcrc b, len := s.len + 1 }

/-- 41_framer.md R125: the marker moves the framer to `RDCK` with `ckcnt = 0`; with room it is stored and covered by the
checksum like any other byte, with a full buffer it is not. -/
def Obligations.RxCkmBeginsChecksumReading : Prop :=
  ∀ s : State,
    (s.len < s.cfg.maxlen →
      ∃ t, exec .rxCkm s = .next t ∧ t.resp = .none ∧
        (∀ a, Memory.read t.buf a = if a = s.len then some 0x21#8 else Memory.read s.buf a) ∧
        t.block = { s.block with buf := t.buf, fcrc := crcByte s.fcrc 0x21#8, len := s.len + 1, ckcnt := 0,
                                 fst := .rdck }) ∧
    (s.cfg.maxlen ≤ s.len →
      ∃ t, exec .rxCkm s = .next t ∧ t.resp = .none ∧ t.block = { s.block with ckcnt := 0, fst := .rdck })

/-- 41_framer.md R126: the first three checksum bytes are captured verbatim in order of arrival; `buf`, `len` and `fcrc`
are not written. -/
def Obligations.RxCkbCapturesOneChecksumByte : Prop :=
  ∀ (s : State) (b : Byte), s.ckcnt.val < 3 →
    ∃ t, exec (.rxCkb b) s = .next t ∧ t.resp = .none ∧
      (∀ a, Memory.read t.ckf a = if a = s.ckcnt.val then some b else Memory.read s.ckf a) ∧
      t.ckcnt.val = s.ckcnt.val + 1 ∧
      t.block = { s.block with ckf := t.ckf, ckcnt := t.ckcnt }

/-- 41_framer.md R127: the fourth checksum byte completes the frame; `valid` and the response are the comparison of the
four captured characters with `hex4(fcrc)`. The first three characters are the ones `ckf` holds. -/
def Obligations.RxCkeCompletesAndValidates : Prop :=
  ∀ (s : State) (b c0 c1 c2 : Byte), Memory.read s.ckf 0 = some c0 → Memory.read s.ckf 1 = some c1 →
    Memory.read s.ckf 2 = some c2 →
    ∃ t, exec (.rxCke b) s = .next t ∧ t.resp = .done (cmpci (hex4 s.fcrc) ⟨c0, c1, c2, b⟩) ∧
      (∀ a, Memory.read t.ckf a = if a = 3 then some b else Memory.read s.ckf a) ∧
      t.block = { s.block with ckf := t.ckf, complete := true, valid := cmpci (hex4 s.fcrc) ⟨c0, c1, c2, b⟩,
                               ckcnt := 0, fst := .idle }

/-- 41_framer.md R128: a stream byte that completes a frame sets `valid` to the comparison of `hex4(crc16)` of exactly
the captured bytes `buf[0 .. len-1]` with the four characters of `ckf`, and answers it. -/
def Obligations.CompletionChecksExactlyTheCapture : Prop :=
  ∀ (s t : State) (b : Byte) (rest : List Input) (v : Bool), Inv s → s.inputs = .rx b :: rest → step s = .next t →
    t.resp = .done v →
    ∃ p c, t.payload = some p ∧ p.length = t.len ∧ Memory.quad t.ckf = some c ∧ t.complete = true ∧ t.valid = v ∧
      v = cmpci (hex4 (crc16 p)) c

/-- 10_state.md R26: `len` never exceeds `MAXLEN`, and never decreases except that a frame-start byte sets it to 1 and
`RESET` to 0, so it is 0 only between `RESET` and the first frame-start byte. -/
def Obligations.LenFallsOnlyAtFrameStartOrReset : Prop :=
  ∀ s t : State, Inv s → step s = .next t →
    t.len ≤ t.cfg.maxlen ∧
    (t.len < s.len →
      (t.len = 1 ∧ ∃ rest, s.inputs = .rx 0x2F#8 :: rest) ∨ (t.len = 0 ∧ ∃ rest, s.inputs = .reset :: rest)) ∧
    (∀ rest, s.inputs = .rx 0x2F#8 :: rest → t.len = 1)

/-- 10_state.md R29, R30: which operations write the two flags, and what they write. -/
def Obligations.OnlyTheseOperationsWriteTheFlags : Prop :=
  ∀ (i : Instr) (s t : State), exec i s = .next t →
    (∀ b, i = .rxCke b → t.complete = true ∧
      ∃ c, Memory.quad t.ckf = some c ∧ t.valid = cmpci (hex4 s.fcrc) c) ∧
    (i = .rxSof ∨ i = .reset → t.complete = false ∧ t.valid = false) ∧
    ((∀ b, i ≠ .rxCke b) → i ≠ .rxSof → i ≠ .reset → t.complete = s.complete ∧ t.valid = s.valid)

/-- 20_memory.md R51: what may write `buf` and where; within a frame an index once written is not rewritten; no host
operation writes `buf` or any other framer state. -/
def Obligations.OnlyRxWritesTheBuffer : Prop :=
  (∀ (i : Instr) (s t : State) (a : Nat) (v : Byte), exec i s = .next t → Memory.read t.buf a = some v →
    Memory.read s.buf a ≠ some v →
    (i = .rxSof ∧ a = 0 ∧ v = 0x2F#8) ∨
    (i = .rxData v ∧ a = s.len ∧ s.len < s.cfg.maxlen) ∨
    (i = .rxCkm ∧ a = s.len ∧ s.len < s.cfg.maxlen ∧ v = 0x21#8)) ∧
  (∀ (i : Instr) (s t : State) (a : Nat), exec i s = .next t → i ≠ .rxSof → i ≠ .reset → a < s.len →
    Memory.read t.buf a = Memory.read s.buf a) ∧
  (∀ (i : Instr) (s t : State), isHost (encode i) = true → exec i s = .next t → SameFramer s t)

/-- 20_memory.md R57: with a full buffer further bytes are dropped, the write pointer neither advances nor wraps, and the
marker still leads to the checksum over what was captured. -/
def Obligations.FullBufferSaturates : Prop :=
  ∀ (s : State) (b : Byte) (rest : List Input), s.inputs = .rx b :: rest → s.fst = .collect →
    s.len = s.cfg.maxlen → b ≠ 0x2F#8 →
    ∃ t, step s = .next t ∧ t.len = s.len ∧ t.fcrc = s.fcrc ∧ (∀ a, Memory.read t.buf a = Memory.read s.buf a) ∧
      t.fst = (if b = 0x21#8 then .rdck else .collect) ∧ t.complete = s.complete ∧ t.valid = s.valid

/-- 41_framer.md R120 (the transition table; its "what happens" column is in the statements of the seven forms): the state
a stream byte leaves depends on the state, the byte's class and `ckcnt` alone. -/
def Obligations.StreamByteTransitions : Prop :=
  ∀ (s t : State) (b : Byte) (rest : List Input), s.inputs = .rx b :: rest → step s = .next t →
    t.fst = (if b = 0x2F#8 then .collect
      else match s.fst with
        | .idle => .idle
        | .collect => if b = 0x21#8 then .rdck else .collect
        | .rdck => if s.ckcnt.val = 3 then .idle else .rdck)

/-- 41_framer.md R130: `RX b` is accepted in every state (of those R31 allows) for every `b`; its response is `None`
except for the fourth checksum byte. -/
def Obligations.RxIsAlwaysAccepted : Prop :=
  ∀ (s : State) (b : Byte) (rest : List Input), Inv s → s.inputs = .rx b :: rest →
    ∃ t, step s = .next t ∧
      (t.resp = .none ∨ (b ≠ 0x2F#8 ∧ s.fst = .rdck ∧ s.ckcnt = 3 ∧ ∃ v, t.resp = .done v))

/-- 10_state.md R31 item 7 (derived): while a frame is complete, a stream byte other than `/` changes none of it. -/
def Obligations.CompleteFrameSurvivesOtherBytes : Prop :=
  ∀ (s : State) (b : Byte) (rest : List Input), Inv s → s.complete = true → s.inputs = .rx b :: rest → b ≠ 0x2F#8 →
    ∃ t, step s = .next t ∧ t.block = s.block

/-- 41_framer.md R133 (derived): presenting `/`, any content without `/` and `!` that fits, `!`, and the checksum text in
any letter case, in ANY state, leaves the frame complete and valid, with `buf[0 .. len-1]` the bytes sent. -/
def Obligations.StampedFrameValidates : Prop :=
  ∀ (s : State) (content : ByteString) (q : Quad) (rest : List Input),
    (∀ b ∈ content, b ≠ 0x2F#8 ∧ b ≠ 0x21#8) →
    content.length + 2 ≤ s.cfg.maxlen →
    SameDigit (hex4 (crc16 (0x2F#8 :: content ++ [0x21#8]))).c0 q.c0 →
    SameDigit (hex4 (crc16 (0x2F#8 :: content ++ [0x21#8]))).c1 q.c1 →
    SameDigit (hex4 (crc16 (0x2F#8 :: content ++ [0x21#8]))).c2 q.c2 →
    SameDigit (hex4 (crc16 (0x2F#8 :: content ++ [0x21#8]))).c3 q.c3 →
    s.inputs = (0x2F#8 :: content ++ [0x21#8] ++ quadList q).map Input.rx ++ rest →
    ∃ t, run (content.length + 6) s = .next t ∧ t.complete = true ∧ t.valid = true ∧
      t.len = content.length + 2 ∧ t.payload = some (0x2F#8 :: content ++ [0x21#8]) ∧ t.fst = .idle ∧
      t.resp = .done true ∧ t.inputs = rest

/-- 20_memory.md R63 (derived): taking every host operation out of a run leaves the framer in the same state: chunking and
interleaving are unobservable. -/
def Obligations.HostOperationsCannotDisturbTheFramer : Prop :=
  ∀ (n : Nat) (s t u : State) (rest : List Input), run n s = .next t → SameFramer s u →
    u.inputs = (s.inputs.take n).filter (fun inp => !isHost inp) ++ rest →
    ∃ v, run ((s.inputs.take n).filter (fun inp => !isHost inp)).length u = .next v ∧ SameFramer t v

/-! ## The extractor -/

/-- 00_scope.md R9: `find(h, n, from)` is the least index `i >= from` at which `n` occurs, or none; for the empty `n` it is
`from` when `from <= |h|`. -/
def Obligations.FindGivesTheFirstOccurrence : Prop :=
  ∀ (h n : ByteString) (start : Nat),
    (∀ i, find h n start = some i ↔ FirstAt h n start i) ∧
    (find h n start = none ↔ Absent h n start) ∧
    (n = [] → find h n start = if start ≤ h.length then some start else none)

/-- 42_extractor.md R152, 30_encoding.md R78: the five results of reading a region, the value being the sum of
`digit(d[j]) * 10^(n-1-j)` over the digits left when the point is removed. -/
def Obligations.ReadingARegionAsANumber : Prop :=
  ∀ r : ByteString,
    (r = [] → readNumber r = .val 0#32) ∧
    ((∃ b ∈ r, b ≠ 0x2E#8 ∧ (b.toNat < 0x30 ∨ 0x39 < b.toNat)) → readNumber r = .err .badField) ∧
    (1 < r.count 0x2E#8 → readNumber r = .err .badField) ∧
    ((∀ b ∈ r, b = 0x2E#8 ∨ (0x30 ≤ b.toNat ∧ b.toNat ≤ 0x39)) → r.count 0x2E#8 ≤ 1 →
      (2 ^ 32 ≤ digitSum (r.filter (fun b => b != 0x2E#8)) → readNumber r = .err .overflow) ∧
      (digitSum (r.filter (fun b => b != 0x2E#8)) < 2 ^ 32 →
        ∃ n, readNumber r = .val n ∧ n.toNat = digitSum (r.filter (fun b => b != 0x2E#8))))

/-- 42_extractor.md R150, R151: the region is strictly between the first `tag` and the first `unit` at or after its end;
an absent field reads `Val(0)`, any other what R152 gives on the region. -/
def Obligations.DecodeReadsTheFirstMatch : Prop :=
  ∀ p tag unit : ByteString,
    (Absent p tag 0 → decodeField p tag unit = .val 0#32) ∧
    (∀ t, FirstAt p tag 0 t → Absent p unit (t + tag.length) → decodeField p tag unit = .val 0#32) ∧
    (∀ t u, FirstAt p tag 0 t → FirstAt p unit (t + tag.length) u →
      decodeField p tag unit = readNumber ((p.drop (t + tag.length)).take (u - (t + tag.length))))

/-- 42_extractor.md R154: the six digits at offset 0 or 6 after the first `tag`. -/
def Obligations.SixDigitsAfterTheTag : Prop :=
  ∀ (p tag : ByteString) (off : Nat), off = 0 ∨ off = 6 →
    (Absent p tag 0 → fix6 p tag off = .val 0#32) ∧
    (∀ t, FirstAt p tag 0 t →
      (p.length < t + tag.length + off + 6 → fix6 p tag off = .err .badField) ∧
      ((∃ b ∈ (p.drop (t + tag.length + off)).take 6, b.toNat < 0x30 ∨ 0x39 < b.toNat) →
        fix6 p tag off = .err .badField) ∧
      (t + tag.length + off + 6 ≤ p.length →
        (∀ b ∈ (p.drop (t + tag.length + off)).take 6, 0x30 ≤ b.toNat ∧ b.toNat ≤ 0x39) →
        ∃ n, fix6 p tag off = .val n ∧ n.toNat = digitSum ((p.drop (t + tag.length + off)).take 6) ∧
          n.toNat ≤ 999999))

/-- 42_extractor.md R153, R155, R156: on a valid frame the three operations answer `decode` and `fix6` of the payload;
without one they answer `NOTREADY`, whatever their operands; they write nothing in any case. -/
def Obligations.ExtractionsAnswerFromTheValidFrame : Prop :=
  ∀ (s : State) (tag unit : ByteString),
    (∀ p, s.valid = true → s.payload = some p →
      (∃ t, exec (.extField tag unit) s = .next t ∧ t.resp = decodeField p tag unit ∧ t.block = s.block) ∧
      (∃ t, exec (.extDate tag) s = .next t ∧ t.resp = fix6 p tag 0 ∧ t.block = s.block) ∧
      (∃ t, exec (.extTime tag) s = .next t ∧ t.resp = fix6 p tag 6 ∧ t.block = s.block)) ∧
    (s.valid = false →
      (∃ t, exec (.extField tag unit) s = .next t ∧ t.resp = .err .notReady ∧ t.block = s.block) ∧
      (∃ t, exec (.extDate tag) s = .next t ∧ t.resp = .err .notReady ∧ t.block = s.block) ∧
      (∃ t, exec (.extTime tag) s = .next t ∧ t.resp = .err .notReady ∧ t.block = s.block))

/-- 60_exceptions.md R206: any record with an extraction's code that arrives while `valid = 0` is refused with `NOTREADY`;
and the frame-start byte clears `valid` in the same operation that starts the overwrite. -/
def Obligations.ExtractionIsRefusedUnlessValid : Prop :=
  (∀ (s : State) (r : HostRecord) (rest : List Input), s.valid = false → s.inputs = .host r :: rest →
    operandFits r.tag = true → operandFits r.unit = true → r.hop = 0x8#4 ∨ r.hop = 0x9#4 ∨ r.hop = 0xA#4 →
    ∃ t, step s = .next t ∧ t.resp = .err .notReady ∧ t.block = s.block) ∧
  (∀ (s : State) (rest : List Input), s.inputs = .rx 0x2F#8 :: rest →
    ∃ t, step s = .next t ∧ t.valid = false ∧ Memory.read t.buf 0 = some 0x2F#8)

/-- 10_state.md R37: each `EXT` operation is a function of `valid`, `len`, `buf[0 .. len-1]` and its operands, and writes
nothing. -/
def Obligations.ExtractorHasNoState : Prop :=
  ∀ (i : Instr) (s t u : State),
    (∃ tag unit, i = .extField tag unit) ∨ (∃ tag, i = .extDate tag) ∨ (∃ tag, i = .extTime tag) →
    exec i s = .next t →
    t.block = s.block ∧
    (u.valid = s.valid → u.len = s.len → (∀ a, a < s.len → Memory.read u.buf a = Memory.read s.buf a) →
      ∃ v, exec i u = .next v ∧ v.resp = t.resp ∧ v.block = u.block)

/-! ## Host access -/

/-- 43_host_access.md R180: `FRM.STAT` is accepted in every state and answers the packed status word and
`len`, writing nothing. -/
def Obligations.FrmStatAnswersThePackedStatus : Prop :=
  ∀ s : State, ∃ t w, exec .frmStat s = .next t ∧ t.resp = .stat w (BitVec.ofNat 16 s.len) ∧ t.block = s.block ∧
    (w.extractLsb' 0 2).toNat = (match s.fst with | .idle => 0 | .collect => 1 | .rdck => 2) ∧
    w.getLsbD 2 = s.complete ∧ w.getLsbD 3 = s.valid ∧
    (w.extractLsb' 4 2).toNat = s.ckcnt.val ∧ w.extractLsb' 6 2 = 0#2

/-- 43_host_access.md R181: `FRM.RDB idx` answers the captured byte below `len` and `BADINDEX` at or above, whatever `valid`
and `complete` are, writing nothing. -/
def Obligations.FrmRdbReadsBelowLen : Prop :=
  ∀ (s : State) (idx : BitVec 16),
    (∀ v, idx.toNat < s.len → Memory.read s.buf idx.toNat = some v →
      ∃ t, exec (.frmRdb idx) s = .next t ∧ t.resp = .byte v ∧ t.block = s.block) ∧
    (s.len ≤ idx.toNat →
      ∃ t, exec (.frmRdb idx) s = .next t ∧ t.resp = .err .badIndex ∧ t.block = s.block)

/-- 43_host_access.md R182: `FRM.RDCK` answers the four characters as received once the frame is complete, and `NOTREADY`
before, writing nothing. -/
def Obligations.FrmRdckReadsTheCompletedChecksum : Prop :=
  ∀ s : State,
    (∀ c0 c1 c2 c3, s.complete = true → Memory.read s.ckf 0 = some c0 → Memory.read s.ckf 1 = some c1 →
      Memory.read s.ckf 2 = some c2 → Memory.read s.ckf 3 = some c3 →
      ∃ t, exec .frmRdck s = .next t ∧ t.resp = .hex ⟨c0, c1, c2, c3⟩ ∧ t.block = s.block) ∧
    (s.complete = false → ∃ t, exec .frmRdck s = .next t ∧ t.resp = .err .notReady ∧ t.block = s.block)

/-- 43_host_access.md R183, 30_encoding.md R82: a record with one of the codes `0x0`, `0xB` to `0xF`, whatever its other
fields, is refused with `BADOP` and changes nothing, in every state. -/
def Obligations.ReservedCodesAnswerBadOp : Prop :=
  ∀ (s : State) (r : HostRecord) (rest : List Input), r.hop = 0x0#4 ∨ 0xB#4 ≤ r.hop →
    (∃ t, exec (.hReserved r.hop) s = .next t ∧ t.resp = .err .badOp ∧ t.block = s.block) ∧
    (s.inputs = .host r :: rest → ∃ t, step s = .next t ∧ t.resp = .err .badOp ∧ t.block = s.block)

/-! ## Errors -/

/-- 60_exceptions.md R203: an operation that responds `Err(e)` writes no state at all, and can be reissued with the same
response. -/
def Obligations.ErrorResponsesChangeNothing : Prop :=
  ∀ (i : Instr) (s t : State) (e : ErrCode), exec i s = .next t → t.resp = .err e →
    t.block = s.block ∧ exec i t = .next t

/-- 60_exceptions.md R202, 30_encoding.md R83 (which operation can give which code; the conditions on a region are in
the statements of R152 and R154). -/
def Obligations.ErrorCodesComeFromTheirOperations : Prop :=
  ∀ (i : Instr) (s t : State), exec i s = .next t →
    (t.resp = .err .notReady ↔
      (s.complete = false ∧ i = .frmRdck) ∨
      (s.valid = false ∧ ((∃ tag unit, i = .extField tag unit) ∨ (∃ tag, i = .extDate tag) ∨
        (∃ tag, i = .extTime tag)))) ∧
    (t.resp = .err .badIndex ↔ ∃ idx, i = .frmRdb idx ∧ s.len ≤ idx.toNat) ∧
    (t.resp = .err .badOp ↔ ∃ hop, i = .hReserved hop) ∧
    (t.resp = .err .overflow → s.valid = true ∧ ∃ tag unit, i = .extField tag unit) ∧
    (t.resp = .err .badField → s.valid = true ∧ ((∃ tag unit, i = .extField tag unit) ∨ (∃ tag, i = .extDate tag) ∨
      (∃ tag, i = .extTime tag)))

/-- The model's own stops at one operation (derived; log 4, log 5, log 7; the spec gives these reads and this index no
value: 10_state.md R25, R27, 20_memory.md R52, R54): exactly where a byte that holds no value would be read or index
`MAXLEN` be written; and no operation is refused. -/
def Obligations.OperationsStopOnlyWhereNoValueIsHeld : Prop :=
  ∀ (i : Instr) (s : State),
    (∀ x, exec i s ≠ .refused x) ∧
    (∀ f, exec i s = .fault f ↔
      (∃ b, i = .rxData b ∧ s.cfg.maxlen ≤ s.len ∧ f = .outsideBuffer s.len) ∨
      (f = .checksumHasNoValue ∧ (∃ b, i = .rxCke b) ∧
        (Memory.read s.ckf 0 = none ∨ Memory.read s.ckf 1 = none ∨ Memory.read s.ckf 2 = none)) ∨
      (f = .checksumHasNoValue ∧ i = .frmRdck ∧ s.complete = true ∧
        (Memory.read s.ckf 0 = none ∨ Memory.read s.ckf 1 = none ∨ Memory.read s.ckf 2 = none ∨
          Memory.read s.ckf 3 = none)) ∨
      (f = .bufferHasNoValue ∧
        (∃ idx, i = .frmRdb idx ∧ idx.toNat < s.len ∧ Memory.read s.buf idx.toNat = none)) ∨
      (f = .bufferHasNoValue ∧ s.valid = true ∧ (∃ a, a < s.len ∧ Memory.read s.buf a = none) ∧
        ((∃ tag unit, i = .extField tag unit) ∨ (∃ tag, i = .extDate tag) ∨ (∃ tag, i = .extTime tag))))

/-! ## Frames over all operations -/

/-- 10_state.md R21, R22, 00_scope.md R2 (derived): only `CRC.CLR`, `CRC.UPD` and `RESET` write `gcrc`; no stream form reads
it; only the storing stream forms and `RESET` write `fcrc`. -/
def Obligations.TheTwoCrcRegistersAreIndependent : Prop :=
  (∀ (i : Instr) (s t : State), exec i s = .next t → i ≠ .crcClr → (∀ b, i ≠ .crcUpd b) → i ≠ .reset →
    t.gcrc = s.gcrc) ∧
  (∀ (i : Instr) (s t : State), exec i s = .next t → i ≠ .rxSof → i ≠ .rxCkm → (∀ b, i ≠ .rxData b) → i ≠ .reset →
    t.fcrc = s.fcrc) ∧
  (∀ (i : Instr) (s t : State) (g : CrcWord), (∃ b, encode i = .rx b) → exec i s = .next t →
    exec i { s with gcrc := g } = .next { t with gcrc := g })

/-- The model's own fields (derived; log 1, log 2, the model's choices): no operation writes the parameter `MAXLEN`
(10_state.md R35) or the operations still to come (00_scope.md R4). -/
def Obligations.NoOperationWritesParameterOrInputs : Prop :=
  ∀ (i : Instr) (s t : State), exec i s = .next t → t.cfg = s.cfg ∧ t.inputs = s.inputs

/-! ## The invariant -/

/-- 10_state.md R23, R31, R36 (derived): the invariant holds at reset, for every `MAXLEN`. -/
def Obligations.InvariantHoldsAtReset : Prop :=
  Inv State.reset ∧ ∀ cfg : Config, Inv (State.resetOf cfg)

/-- 10_state.md R23, R25 to R28, R31 (derived): every step from a state that meets the invariant leaves one that does. -/
def Obligations.StepKeepsTheInvariant : Prop :=
  ∀ s t : State, Inv s → step s = .next t → Inv t

/-- 00_scope.md R3, 20_memory.md R59, 10_state.md R31 (derived): for every `MAXLEN`, every sequence of operations that
agents can present runs from reset without a stop, one step each, and ends in a state that meets the invariant. -/
def Obligations.NoSequenceOfOperationsStops : Prop :=
  ∀ (cfg : Config) (inputs : List Input) (n : Nat), (∀ inp ∈ inputs, inp.wellFormed = true) →
    ∃ t, run n { State.resetOf cfg with inputs := inputs } = .next t ∧ Inv t ∧ t.inputs = inputs.drop n

/-! ## Decoding -/

/-- 30_encoding.md R73: over every state of the framer and every byte the seven rows are exhaustive and disjoint: the
decoded form is a row that applies, and no other row does. -/
def Obligations.StreamRowsAreExhaustiveAndDisjoint : Prop :=
  ∀ (m : DecodeMode) (b : Byte) (i : Instr),
    (i.wellFormed = true ∧ i.appliesIn m = true ∧ encode i = .rx b) ↔ i = decodeStream m b

/-- 30_encoding.md R88: decoding by the opcode table, the row of smallest order among those that match, is the decoder, for
stream bytes and for records whose operands fit R80. -/
def Obligations.DecoderIsTheOpcodeTable : Prop :=
  (∀ (m : DecodeMode) (b : Byte), tableDecodeStream m b = some (decodeStream m b)) ∧
  (∀ r : HostRecord, operandFits r.tag = true → operandFits r.unit = true →
    ∃ i, tableDecodeHost r = some i ∧ decodeHost r = .ok i)

/-- 30_encoding.md R80, R81, R82: the operation each code stands for, in every mode, on records whose operands fit R80. -/
def Obligations.HostCodesDecodeToTheirOperations : Prop :=
  ∀ (m : DecodeMode) (r : HostRecord), operandFits r.tag = true → operandFits r.unit = true →
    decode m (.host r) = .ok
      (if r.hop = 0x1#4 then .crcClr else if r.hop = 0x2#4 then .crcUpd r.b
       else if r.hop = 0x3#4 then .crcRd else if r.hop = 0x4#4 then .crcHex
       else if r.hop = 0x5#4 then .frmStat else if r.hop = 0x6#4 then .frmRdb r.idx
       else if r.hop = 0x7#4 then .frmRdck else if r.hop = 0x8#4 then .extField r.tag r.unit
       else if r.hop = 0x9#4 then .extDate r.tag else if r.hop = 0xA#4 then .extTime r.tag
       else .hReserved r.hop)

/-- 30_encoding.md R73, R81 (derived): decoding the encoding of a well-formed operation, in any state in which its row
applies, gives it back, with every operand. -/
def Obligations.DecodeOfEncodeIsTheOperation : Prop :=
  ∀ (i : Instr) (m : DecodeMode), i.wellFormed = true → i.appliesIn m = true → decode m (encode i) = .ok i

/-- 30_encoding.md R73, R80 to R82 (derived): what the decoder gives is well-formed, applies in the state, and decodes the
same as its own encoding; the decoder rejects exactly a record that uses an operand over 255 bytes (log 8, the model's
choice). -/
def Obligations.DecoderGivesOnlyWellFormedOperations : Prop :=
  (∀ (m : DecodeMode) (inp : Input) (i : Instr), decode m inp = .ok i →
    i.wellFormed = true ∧ i.appliesIn m = true ∧ decode m (encode i) = .ok i) ∧
  (∀ (m : DecodeMode) (inp : Input), (∃ e, decode m inp = .error e) ↔
    ∃ r, inp = .host r ∧
      ((r.hop = 0x8#4 ∧ (255 < r.tag.length ∨ 255 < r.unit.length)) ∨
       ((r.hop = 0x9#4 ∨ r.hop = 0xA#4) ∧ 255 < r.tag.length)))

/-- 00_scope.md R3, R4, 60_exceptions.md R217 (derived): a step takes the oldest operation still to come, decodes it under
the state it finds, and runs it; a block that no agent drives keeps its state. Three things in it are the model's choices
and not the spec's: the list of operations to come (log 2); that `step` refuses, by name, a record the decoder rejects
(log 8); and that a `len` above `MAXLEN`, which no run reaches, is decoded as a full buffer (log 6). -/
def Obligations.StepRunsTheOldestOperation : Prop :=
  (∀ (s : State) (inp : Input) (rest : List Input) (i : Instr), s.inputs = inp :: rest →
    decode ⟨s.fst, decide (s.len < s.cfg.maxlen), decide (s.ckcnt = 3)⟩ inp = .ok i →
    step s = exec i { s with inputs := rest }) ∧
  (∀ (s : State) (inp : Input) (rest : List Input) (e : DecodeError), s.inputs = inp :: rest →
    decode ⟨s.fst, decide (s.len < s.cfg.maxlen), decide (s.ckcnt = 3)⟩ inp = .error e →
    step s = .refused (.malformedRecord e)) ∧
  (∀ s : State, s.inputs = [] → step s = .next s)

/-- 30_encoding.md R72, R73, R81 (derived): words written out from the spec's encodings decode to what they stand for. -/
def Obligations.WrittenOutWordsDecode : Prop :=
  decode ⟨.rdck, true, true⟩ (.rx 0b00101111#8) = .ok .rxSof ∧
  decode ⟨.idle, true, false⟩ (.rx 0b00100001#8) = .ok (.rxSkip 0x21#8) ∧
  decode ⟨.collect, false, false⟩ (.rx 0b00100001#8) = .ok .rxCkm ∧
  decode ⟨.rdck, true, true⟩ (.rx 0b01000011#8) = .ok (.rxCke 0x43#8) ∧
  decode ⟨.idle, true, false⟩ (.host ⟨0b0010#4, 0x31#8, 0x0#16, [], []⟩) = .ok (.crcUpd 0x31#8) ∧
  decode ⟨.idle, true, false⟩ (.host ⟨0b0110#4, 0x0#8, 0x5#16, [], []⟩) = .ok (.frmRdb 0x5#16) ∧
  decode ⟨.idle, true, false⟩ (.host ⟨0b1000#4, 0x0#8, 0x0#16, [0x41#8], [0x21#8]⟩) =
    .ok (.extField [0x41#8] [0x21#8]) ∧
  decode ⟨.idle, true, false⟩ (.host ⟨0b1111#4, 0x0#8, 0x0#16, [], []⟩) = .ok (.hReserved 0xF#4)

/-! ## Progress -/

/-- 00_scope.md R3, R4, 10_state.md R31, 30_encoding.md R80 (derived; the list of operations to come is the model's choice,
log 2): from every state that meets the invariant, with only operations to come that agents can present, a step gives a
next state, and both hold of it again. -/
def Obligations.StepAnswersAndKeepsTheInvariant : Prop :=
  ∀ s : State, Inv s → InputsFit s → ∃ t, step s = .next t ∧ Inv t ∧ InputsFit t
end

