-- ==== Sys2Proof/Laws/State.lean ====
section
/-! SUPPORT. Sys2Proof/Laws/State.lean: each field after each shared update of the state, so that no proof unfolds a record
update; and the nine items of `State.block`. -/

namespace Sys2Proof.Machine

/-! ## `respond`: the response and nothing else -/

@[simp] theorem respond_cfg (x : Response) (s : State) : (respond x s).cfg = s.cfg := rfl
@[simp] theorem respond_gcrc (x : Response) (s : State) : (respond x s).gcrc = s.gcrc := rfl
@[simp] theorem respond_fcrc (x : Response) (s : State) : (respond x s).fcrc = s.fcrc := rfl
@[simp] theorem respond_fst (x : Response) (s : State) : (respond x s).fst = s.fst := rfl
@[simp] theorem respond_buf (x : Response) (s : State) : (respond x s).buf = s.buf := rfl
@[simp] theorem respond_len (x : Response) (s : State) : (respond x s).len = s.len := rfl
@[simp] theorem respond_ckf (x : Response) (s : State) : (respond x s).ckf = s.ckf := rfl
@[simp] theorem respond_ckcnt (x : Response) (s : State) : (respond x s).ckcnt = s.ckcnt := rfl
@[simp] theorem respond_complete (x : Response) (s : State) : (respond x s).complete = s.complete := rfl
@[simp] theorem respond_valid (x : Response) (s : State) : (respond x s).valid = s.valid := rfl
@[simp] theorem respond_resp (x : Response) (s : State) : (respond x s).resp = x := rfl
@[simp] theorem respond_inputs (x : Response) (s : State) : (respond x s).inputs = s.inputs := rfl

/-! ## `restart`: the buffer, `len` and `fcrc` -/

@[simp] theorem restart_cfg (s : State) : (restart s).cfg = s.cfg := rfl
@[simp] theorem restart_gcrc (s : State) : (restart s).gcrc = s.gcrc := rfl
@[simp] theorem restart_fcrc (s : State) : (restart s).fcrc = crcByte crcInit sofByte := rfl
@[simp] theorem restart_fst (s : State) : (restart s).fst = s.fst := rfl
@[simp] theorem restart_buf (s : State) : (restart s).buf = [(0, sofByte)] := rfl
@[simp] theorem restart_len (s : State) : (restart s).len = 1 := rfl
@[simp] theorem restart_ckf (s : State) : (restart s).ckf = s.ckf := rfl
@[simp] theorem restart_ckcnt (s : State) : (restart s).ckcnt = s.ckcnt := rfl
@[simp] theorem restart_complete (s : State) : (restart s).complete = s.complete := rfl
@[simp] theorem restart_valid (s : State) : (restart s).valid = s.valid := rfl
@[simp] theorem restart_resp (s : State) : (restart s).resp = s.resp := rfl
@[simp] theorem restart_inputs (s : State) : (restart s).inputs = s.inputs := rfl

/-! ## `append`: the buffer, `len` and `fcrc` -/

@[simp] theorem append_cfg (b : Byte) (s : State) : (append b s).cfg = s.cfg := rfl
@[simp] theorem append_gcrc (b : Byte) (s : State) : (append b s).gcrc = s.gcrc := rfl
@[simp] theorem append_fcrc (b : Byte) (s : State) : (append b s).fcrc = crcByte s.fcrc b := rfl
@[simp] theorem append_fst (b : Byte) (s : State) : (append b s).fst = s.fst := rfl
@[simp] theorem append_buf (b : Byte) (s : State) : (append b s).buf = Memory.write s.buf s.len b := rfl
@[simp] theorem append_len (b : Byte) (s : State) : (append b s).len = s.len + 1 := rfl
@[simp] theorem append_ckf (b : Byte) (s : State) : (append b s).ckf = s.ckf := rfl
@[simp] theorem append_ckcnt (b : Byte) (s : State) : (append b s).ckcnt = s.ckcnt := rfl
@[simp] theorem append_complete (b : Byte) (s : State) : (append b s).complete = s.complete := rfl
@[simp] theorem append_valid (b : Byte) (s : State) : (append b s).valid = s.valid := rfl
@[simp] theorem append_resp (b : Byte) (s : State) : (append b s).resp = s.resp := rfl
@[simp] theorem append_inputs (b : Byte) (s : State) : (append b s).inputs = s.inputs := rfl

/-! ## The state after reset -/

@[simp] theorem resetOf_cfg (cfg : Config) : (State.resetOf cfg).cfg = cfg := rfl
@[simp] theorem resetOf_gcrc (cfg : Config) : (State.resetOf cfg).gcrc = 0#16 := rfl
@[simp] theorem resetOf_fcrc (cfg : Config) : (State.resetOf cfg).fcrc = 0#16 := rfl
@[simp] theorem resetOf_fst (cfg : Config) : (State.resetOf cfg).fst = .idle := rfl
@[simp] theorem resetOf_buf (cfg : Config) : (State.resetOf cfg).buf = [] := rfl
@[simp] theorem resetOf_len (cfg : Config) : (State.resetOf cfg).len = 0 := rfl
@[simp] theorem resetOf_ckf (cfg : Config) : (State.resetOf cfg).ckf = [] := rfl
@[simp] theorem resetOf_ckcnt (cfg : Config) : (State.resetOf cfg).ckcnt = 0 := rfl
@[simp] theorem resetOf_complete (cfg : Config) : (State.resetOf cfg).complete = false := rfl
@[simp] theorem resetOf_valid (cfg : Config) : (State.resetOf cfg).valid = false := rfl
@[simp] theorem resetOf_resp (cfg : Config) : (State.resetOf cfg).resp = .none := rfl
@[simp] theorem resetOf_inputs (cfg : Config) : (State.resetOf cfg).inputs = [] := rfl

/-! ## The nine items -/

@[simp] theorem block_gcrc (s : State) : s.block.gcrc = s.gcrc := rfl
@[simp] theorem block_fcrc (s : State) : s.block.fcrc = s.fcrc := rfl
@[simp] theorem block_fst (s : State) : s.block.fst = s.fst := rfl
@[simp] theorem block_buf (s : State) : s.block.buf = s.buf := rfl
@[simp] theorem block_len (s : State) : s.block.len = s.len := rfl
@[simp] theorem block_ckf (s : State) : s.block.ckf = s.ckf := rfl
@[simp] theorem block_ckcnt (s : State) : s.block.ckcnt = s.ckcnt := rfl
@[simp] theorem block_complete (s : State) : s.block.complete = s.complete := rfl
@[simp] theorem block_valid (s : State) : s.block.valid = s.valid := rfl

/-- The response is no part of the block (00_scope.md R12). -/
@[simp] theorem respond_block (x : Response) (s : State) : (respond x s).block = s.block := rfl

/-- Nor are the operations still to come (R4). -/
@[simp] theorem inputs_block (s : State) (l : List Input) : ({ s with inputs := l } : State).block = s.block := rfl

@[simp] theorem respond_payload (x : Response) (s : State) : (respond x s).payload = s.payload := rfl

@[simp] theorem inputs_payload (s : State) (l : List Input) :
    ({ s with inputs := l } : State).payload = s.payload := rfl

/-- A state is its nine items and the model's three fields. -/
theorem State.eq_of_block (s t : State) (hb : t.block = s.block) (hc : t.cfg = s.cfg) (hr : t.resp = s.resp)
    (hi : t.inputs = s.inputs) : t = s := by
  cases s; cases t; simp_all [State.block]

end Sys2Proof.Machine
end

