-- ==== Sys2Proof/Laws/Memory.lean ====
section
/-! SUPPORT. Sys2Proof/Laws/Memory.lean: the byte arrays. A read after a write; the canonical form is kept by every
operation and makes equal arrays equal data; slices and the checksum field. -/

namespace Sys2Proof.Machine

@[simp] theorem Memory.read_nil (i : Nat) : Memory.read [] i = none := rfl

@[simp] theorem Memory.read_cons (j : Nat) (v : Byte) (m : Memory) (i : Nat) :
    Memory.read ((j, v) :: m) i = if i = j then some v else Memory.read m i := rfl

/-- A read after a write to the same entry gives the byte written; every other entry is left alone. -/
theorem Memory.read_write (m : Memory) (i : Nat) (v : Byte) (a : Nat) :
    Memory.read (Memory.write m i v) a = if a = i then some v else Memory.read m a := by
  induction m with
  | nil => simp [Memory.write]
  | cons c m ih =>
    obtain ⟨j, w⟩ := c
    unfold Memory.write
    split
    · simp
    · split
      · subst_vars; by_cases h : a = j <;> simp [h]
      · by_cases h : a = j
        · subst h
          have : a ≠ i := by omega
          simp [this]
        · simp [h, ih]

@[simp] theorem Memory.read_write_same (m : Memory) (i : Nat) (v : Byte) :
    Memory.read (Memory.write m i v) i = some v := by simp [Memory.read_write]

theorem Memory.read_write_other (m : Memory) (i : Nat) (v : Byte) (a : Nat) (h : a ≠ i) :
    Memory.read (Memory.write m i v) a = Memory.read m a := by simp [Memory.read_write, h]

/-! ## The canonical form -/

@[simp] theorem Memory.wf_nil : Memory.wf [] = true := rfl

theorem Memory.wf_cons (i : Nat) (v : Byte) (m : Memory) :
    Memory.wf ((i, v) :: m) = true ↔ (∀ c ∈ m, i < c.1) ∧ Memory.wf m = true := by
  simp [Memory.wf, List.all_eq_true]

/-- What a write lists: the entry written, or an entry that was listed. -/
theorem Memory.mem_write (m : Memory) (i : Nat) (v : Byte) (c : Host.Cell) (h : c ∈ Memory.write m i v) :
    c.1 = i ∨ c ∈ m := by
  induction m with
  | nil => simp [Memory.write] at h; simp [h]
  | cons d m ih =>
    obtain ⟨j, w⟩ := d
    unfold Memory.write at h
    split at h
    · simp at h; rcases h with rfl | rfl | h <;> simp_all
    · split at h
      · simp at h; rcases h with rfl | h <;> simp_all
      · simp at h
        rcases h with rfl | h
        · simp
        · rcases ih h with h | h <;> simp [h]

/-- A write keeps the canonical form. -/
theorem Memory.wf_write (m : Memory) (i : Nat) (v : Byte) (h : Memory.wf m = true) :
    Memory.wf (Memory.write m i v) = true := by
  induction m with
  | nil => simp [Memory.write, Memory.wf]
  | cons d m ih =>
    obtain ⟨j, w⟩ := d
    rw [Memory.wf_cons] at h
    unfold Memory.write
    split
    · rw [Memory.wf_cons, Memory.wf_cons]
      refine ⟨?_, h⟩
      intro c hc
      rcases List.mem_cons.mp hc with rfl | hc
      · assumption
      · have := h.1 c hc; omega
    · split
      · subst_vars; rw [Memory.wf_cons]; exact h
      · rw [Memory.wf_cons]
        refine ⟨?_, ih h.2⟩
        intro c hc
        rcases Memory.mem_write _ _ _ _ hc with hc | hc
        · omega
        · exact h.1 c hc

/-- In a canonical array nothing below the first entry is listed. -/
theorem Memory.read_below (m : Memory) (i : Nat) (h : ∀ c ∈ m, i < c.1) : Memory.read m i = none := by
  induction m with
  | nil => rfl
  | cons d m ih =>
    obtain ⟨j, w⟩ := d
    have : i ≠ j := by have := h (j, w) (by simp); simp at this; omega
    simp [this, ih (fun c hc => h c (by simp [hc]))]

/-- Canonical arrays that read alike are the same data. -/
theorem Memory.eq_of_read_eq (m n : Memory) (hm : Memory.wf m = true) (hn : Memory.wf n = true)
    (h : ∀ i, Memory.read m i = Memory.read n i) : m = n := by
  induction m generalizing n with
  | nil =>
    cases n with
    | nil => rfl
    | cons d n => obtain ⟨j, w⟩ := d; have := h j; simp at this
  | cons c m ih =>
    obtain ⟨i, v⟩ := c
    rw [Memory.wf_cons] at hm
    cases n with
    | nil => have := h i; simp at this
    | cons d n =>
      obtain ⟨j, w⟩ := d
      rw [Memory.wf_cons] at hn
      have hij : i = j := by
        rcases Nat.lt_trichotomy i j with hlt | heq | hgt
        · have h1 := h i
          rw [Memory.read_below ((j, w) :: n) i
            (by intro c hc; rcases List.mem_cons.mp hc with rfl | hc
                · exact hlt
                · have := hn.1 c hc; omega)] at h1
          simp at h1
        · exact heq
        · have h1 := h j
          rw [Memory.read_below ((i, v) :: m) j
            (by intro c hc; rcases List.mem_cons.mp hc with rfl | hc
                · exact hgt
                · have := hm.1 c hc; omega)] at h1
          simp at h1
      subst hij
      have hv : v = w := by have := h i; simpa using this
      subst hv
      congr 1
      apply ih n hm.2 hn.2
      intro a
      by_cases ha : a = i
      · subst ha; rw [Memory.read_below m a hm.1, Memory.read_below n a hn.1]
      · have := h a; simpa [ha] using this

/-! ## Slices -/

@[simp] theorem Memory.slice_zero (m : Memory) (i : Nat) : Memory.slice m i 0 = some [] := by
  simp [Memory.slice]

theorem Memory.slice_succ (m : Memory) (i n : Nat) :
    Memory.slice m i (n + 1) =
      match Memory.read m i, Memory.slice m (i + 1) n with
      | some b, some rest => some (b :: rest)
      | _, _ => none := rfl

/-- A slice reads only the entries it covers. -/
theorem Memory.slice_congr (m k : Memory) (n : Nat) :
    ∀ i, (∀ a, i ≤ a → a < i + n → Memory.read k a = Memory.read m a) → Memory.slice k i n = Memory.slice m i n := by
  induction n with
  | zero => intro i _; simp
  | succ n ih =>
    intro i h
    rw [Memory.slice_succ, Memory.slice_succ, h i (by omega) (by omega),
      ih (i + 1) (fun a h1 h2 => h a (by omega) (by omega))]

/-- A slice has a value exactly when every entry it covers does. -/
theorem Memory.slice_isSome (m : Memory) (n : Nat) :
    ∀ i, (Memory.slice m i n).isSome = true ↔ ∀ a, i ≤ a → a < i + n → (Memory.read m a).isSome = true := by
  induction n with
  | zero => intro i; simp; intro a h1 h2; omega
  | succ n ih =>
    intro i
    rw [Memory.slice_succ]
    constructor
    · intro h a h1 h2
      cases hr : Memory.read m i with
      | none => simp [hr] at h
      | some b =>
        cases hs : Memory.slice m (i + 1) n with
        | none => simp [hr, hs] at h
        | some rest =>
          rcases Nat.eq_or_lt_of_le h1 with rfl | h1
          · simp [hr]
          · exact (ih (i + 1)).mp (by simp [hs]) a (by omega) (by omega)
    · intro h
      have h0 := h i (by omega) (by omega)
      have h1 := (ih (i + 1)).mpr (fun a h1 h2 => h a (by omega) (by omega))
      obtain ⟨b, hb⟩ := Option.isSome_iff_exists.mp h0
      obtain ⟨rest, hrest⟩ := Option.isSome_iff_exists.mp h1
      simp [hb, hrest]

/-- One more entry at the end. -/
theorem Memory.slice_snoc (m : Memory) (b : Byte) (n : Nat) :
    ∀ i p, Memory.slice m i n = some p → Memory.read m (i + n) = some b →
      Memory.slice m i (n + 1) = some (p ++ [b]) := by
  induction n with
  | zero => intro i p h hb; simp at h; subst h; simp [Memory.slice_succ] at *; simp [hb]
  | succ n ih =>
    intro i p h hb
    rw [Memory.slice_succ] at h
    cases hr : Memory.read m i with
    | none => simp [hr] at h
    | some c =>
      cases hs : Memory.slice m (i + 1) n with
      | none => simp [hr, hs] at h
      | some rest =>
        simp [hr, hs] at h
        subst h
        have := ih (i + 1) rest hs (by rw [← hb]; congr 1; omega)
        rw [Memory.slice_succ, hr, this]
        simp

/-- The bytes of a slice are what the entries hold. -/
theorem Memory.slice_read (m : Memory) (n : Nat) :
    ∀ i p, Memory.slice m i n = some p → p.length = n ∧ ∀ j, j < n → Memory.read m (i + j) = p[j]? := by
  induction n with
  | zero => intro i p h; simp at h; subst h; simp
  | succ n ih =>
    intro i p h
    rw [Memory.slice_succ] at h
    cases hr : Memory.read m i with
    | none => simp [hr] at h
    | some c =>
      cases hs : Memory.slice m (i + 1) n with
      | none => simp [hr, hs] at h
      | some rest =>
        simp [hr, hs] at h
        subst h
        obtain ⟨h1, h2⟩ := ih (i + 1) rest hs
        refine ⟨by simp [h1], ?_⟩
        intro j hj
        cases j with
        | zero => simp [hr]
        | succ j => simp; rw [← h2 j (by omega)]; congr 1; omega

/-! ## The checksum field -/

/-- The four characters, if each position holds one. -/
theorem Memory.quad_eq_some (m : Memory) (q : Quad) :
    Memory.quad m = some q ↔ Memory.read m 0 = some q.c0 ∧ Memory.read m 1 = some q.c1 ∧
      Memory.read m 2 = some q.c2 ∧ Memory.read m 3 = some q.c3 := by
  unfold Memory.quad
  obtain ⟨q0, q1, q2, q3⟩ := q
  constructor
  · intro h
    split at h
    · next h0 h1 h2 h3 => simp at h; obtain ⟨rfl, rfl, rfl, rfl⟩ := h; simp [h0, h1, h2, h3]
    · simp at h
  · rintro ⟨h0, h1, h2, h3⟩; simp at h0 h1 h2 h3; simp [h0, h1, h2, h3]

theorem Memory.quad_eq_none (m : Memory) :
    Memory.quad m = none ↔ Memory.read m 0 = none ∨ Memory.read m 1 = none ∨ Memory.read m 2 = none ∨
      Memory.read m 3 = none := by
  unfold Memory.quad
  cases Memory.read m 0 <;> cases Memory.read m 1 <;> cases Memory.read m 2 <;> cases Memory.read m 3 <;> simp

/-- The checksum field depends on positions 0 to 3 alone. -/
theorem Memory.quad_congr (m k : Memory) (h : ∀ a, a < 4 → Memory.read k a = Memory.read m a) :
    Memory.quad k = Memory.quad m := by
  unfold Memory.quad
  rw [h 0 (by omega), h 1 (by omega), h 2 (by omega), h 3 (by omega)]

end Sys2Proof.Machine
end

