-- ==== Sys2Proof/Laws/Crc.lean ====
section
/-! SUPPORT. Sys2Proof/Laws/Crc.lean: the CRC function. One byte as eight bits; strings by their last byte and by
concatenation; one bit is linear over XOR. -/

namespace Sys2Proof.Machine

/-- One byte is eight bits, bit 0 first (40_crc.md R101). -/
theorem crcByte_eq (c : CrcWord) (b : Byte) :
    crcByte c b =
      crcBit (crcBit (crcBit (crcBit (crcBit (crcBit (crcBit (crcBit c (b.getLsbD 0)) (b.getLsbD 1)) (b.getLsbD 2))
        (b.getLsbD 3)) (b.getLsbD 4)) (b.getLsbD 5)) (b.getLsbD 6)) (b.getLsbD 7) := rfl

@[simp] theorem crc16_nil : crc16 [] = 0x0000#16 := rfl

/-- One more byte at the end (R102). -/
theorem crc16_snoc (s : ByteString) (b : Byte) : crc16 (s ++ [b]) = crcByte (crc16 s) b := by
  simp [crc16, List.foldl_append]

/-- The CRC of `/` alone (the value R121 gives). -/
theorem crcByte_sof : crcByte crcInit sofByte = 0xDC41#16 := by decide

/-- One bit is linear over XOR (R110). -/
theorem crcBit_xor (c c' : CrcWord) (d d' : Bool) :
    crcBit (c ^^^ c') (d ^^ d') = crcBit c d ^^^ crcBit c' d' := by
  have feedback : ∀ p q : Bool, (if (p ^^ q) = true then poly else 0x0000#16) =
      (if p = true then poly else 0x0000#16) ^^^ (if q = true then poly else 0x0000#16) := by decide
  have regroup : ∀ p p' q q' : Bool, ((p ^^ p') ^^ (q ^^ q')) = ((p ^^ q) ^^ (p' ^^ q')) := by decide
  unfold crcBit
  rw [BitVec.ushiftRight_xor_distrib, BitVec.getLsbD_xor, regroup, feedback]
  ac_rfl

/-- One byte is linear over XOR (R110). -/
theorem crcByte_xor (c c' : CrcWord) (b b' : Byte) :
    crcByte (c ^^^ c') (b ^^^ b') = crcByte c b ^^^ crcByte c' b' := by
  simp only [crcByte_eq, BitVec.getLsbD_xor, crcBit_xor]

end Sys2Proof.Machine
end

