-- ==== Sys2Proof/Laws/Text.lean ====
section
/-! SUPPORT. Sys2Proof/Laws/Text.lean: the text forms. What the search of a suffix finds, and decimal accumulation. -/

namespace Sys2Proof.Machine

/-- `n` begins at offset `k` of `h` exactly when it is a prefix of what is left there. -/
theorem occursAt_iff_prefix (h n : ByteString) (k : Nat) (hk : k ≤ h.length) :
    OccursAt h n k ↔ n <+: h.drop k := by
  unfold OccursAt
  rw [List.prefix_iff_eq_take]
  constructor
  · rintro ⟨_, h2⟩; exact h2.symm
  · intro h2
    refine ⟨?_, h2.symm⟩
    have := congrArg List.length h2
    simp at this
    omega

/-- The search of `h` from offset `i` on finds the least offset at which `n` is a prefix (00_scope.md R9). -/
theorem findFrom_eq_some (n : ByteString) (h : ByteString) :
    ∀ i k, findFrom n h i = some k ↔
      ∃ j, k = i + j ∧ j ≤ h.length ∧ n <+: h.drop j ∧ ∀ l, l < j → ¬ n <+: h.drop l := by
  induction h with
  | nil =>
    intro i k
    simp only [findFrom, List.isPrefixOf_iff_prefix, List.drop_nil, List.length_nil]
    split
    · next hp =>
      constructor
      · rintro ⟨⟩; exact ⟨0, rfl, Nat.le_refl _, hp, fun l hl => absurd hl (by omega)⟩
      · rintro ⟨j, rfl, hj, _⟩; simp; omega
    · next hp =>
      constructor
      · rintro ⟨⟩
      · rintro ⟨j, _, _, hpre, _⟩; exact absurd hpre hp
  | cons x xs ih =>
    intro i k
    simp only [findFrom, List.isPrefixOf_iff_prefix]
    split
    · next hp =>
      constructor
      · rintro ⟨⟩; exact ⟨0, rfl, Nat.zero_le _, hp, fun l hl => absurd hl (by omega)⟩
      · rintro ⟨j, rfl, _, _, hmin⟩
        cases j with
        | zero => rfl
        | succ j => exact absurd hp (hmin 0 (by omega))
    · next hp =>
      rw [ih]
      constructor
      · rintro ⟨j, rfl, hj, hpre, hmin⟩
        refine ⟨j + 1, by omega, by simp; omega, by simpa using hpre, ?_⟩
        intro l hl
        cases l with
        | zero => exact hp
        | succ l => simpa using hmin l (by omega)
      · rintro ⟨j, rfl, hj, hpre, hmin⟩
        cases j with
        | zero => exact absurd hpre hp
        | succ j =>
          refine ⟨j, by omega, by simp at hj; omega, by simpa using hpre, ?_⟩
          intro l hl
          simpa using hmin (l + 1) (by omega)

/-- The search finds nothing exactly when `n` is a prefix at no offset. -/
theorem findFrom_eq_none (n : ByteString) (h : ByteString) :
    ∀ i, findFrom n h i = none ↔ ∀ j, j ≤ h.length → ¬ n <+: h.drop j := by
  induction h with
  | nil => intro i; simp [findFrom]
  | cons x xs ih =>
    intro i
    simp only [findFrom, List.isPrefixOf_iff_prefix]
    split
    · next hp =>
      constructor
      · rintro ⟨⟩
      · intro h; exact absurd hp (h 0 (Nat.zero_le _))
    · next hp =>
      rw [ih]
      constructor
      · intro h j hj
        cases j with
        | zero => exact hp
        | succ j => simpa using h j (by simp at hj; omega)
      · intro h j hj
        simpa using h (j + 1) (by simp; omega)

/-- Accumulating from `a` (42_extractor.md R159). -/
theorem decimal_fold (ds : ByteString) :
    ∀ a, ds.foldl (fun n d => n * 10 + digit d) a = a * 10 ^ ds.length + decimalValue ds := by
  unfold decimalValue
  induction ds with
  | nil => intro a; simp
  | cons d ds ih =>
    intro a
    simp only [List.foldl_cons, List.length_cons]
    rw [ih, ih (0 * 10 + digit d)]
    ring

/-- The accumulated value by the first digit (30_encoding.md R78). -/
theorem decimalValue_cons (d : Byte) (ds : ByteString) :
    decimalValue (d :: ds) = digit d * 10 ^ ds.length + decimalValue ds := by
  rw [decimalValue, List.foldl_cons, decimal_fold]
  simp

@[simp] theorem decimalValue_nil : decimalValue [] = 0 := rfl

/-- A byte is a digit or not, in numbers (00_scope.md R11). -/
theorem isDigit_iff (b : Byte) : isDigit b = true ↔ 0x30 ≤ b.toNat ∧ b.toNat ≤ 0x39 := by
  simp [isDigit]

end Sys2Proof.Machine
end

