-- ==== Sys2Proof/Laws/Exec.lean ====
section
/-! SUPPORT. Sys2Proof/Laws/Exec.lean: what each meaning that can end in more than one way can do, said once: if it answers
`next t`, then one of these cases holds. (The other meanings are their defining equation.) -/

namespace Sys2Proof.Machine

/-- `RX.DATA` (41_framer.md R123). -/
theorem execRxData_next (b : Byte) (s t : State) :
    execRxData b s = .next t ↔ s.len < s.cfg.maxlen ∧ t = respond .none (append b s) := by
  unfold execRxData
  by_cases h : s.len < s.cfg.maxlen <;> simp [h, @eq_comm _ t]

/-- `RX.CKE` (R127). -/
theorem execRxCke_next (b : Byte) (s t : State) :
    execRxCke b s = .next t ↔ ∃ c, Memory.quad (Memory.write s.ckf 3 b) = some c ∧
      t = respond (.done (validFlag s.fcrc c))
        { s with ckf := Memory.write s.ckf 3 b, complete := true, valid := validFlag s.fcrc c, ckcnt := 0,
                 fst := .idle } := by
  unfold execRxCke
  cases Memory.quad (Memory.write s.ckf 3 b) <;> simp [@eq_comm _ t]

/-- `FRM.RDB` (43_host_access.md R181). -/
theorem execFrmRdb_next (idx : BitVec 16) (s t : State) :
    execFrmRdb idx s = .next t ↔
      (s.len ≤ idx.toNat ∧ t = respond (.err .badIndex) s) ∨
      (idx.toNat < s.len ∧ ∃ v, Memory.read s.buf idx.toNat = some v ∧ t = respond (.byte v) s) := by
  unfold execFrmRdb raise
  by_cases h : s.len ≤ idx.toNat
  · simp [h, @eq_comm _ t]
  · cases Memory.read s.buf idx.toNat <;> simp [h, Nat.lt_of_not_le h, @eq_comm _ t]

/-- `FRM.RDCK` (R182). -/
theorem execFrmRdck_next (s t : State) :
    execFrmRdck s = .next t ↔
      (s.complete = false ∧ t = respond (.err .notReady) s) ∨
      (s.complete = true ∧ ∃ c, Memory.quad s.ckf = some c ∧ t = respond (.hex c) s) := by
  unfold execFrmRdck raise
  cases s.complete <;> cases Memory.quad s.ckf <;> simp [@eq_comm _ t]

/-- An extraction (42_extractor.md R153, R155, R156). -/
theorem extract_next (f : ByteString → Response) (s t : State) :
    extract f s = .next t ↔
      (s.valid = false ∧ t = respond (.err .notReady) s) ∨
      (s.valid = true ∧ ∃ p, s.payload = some p ∧ t = respond (f p) s) := by
  unfold extract raise
  cases s.valid <;> cases s.payload <;> simp [@eq_comm _ t]

/-- An extraction never gives one of the other units' errors, and never more than the response. -/
theorem extract_next_block (f : ByteString → Response) (s t : State) (h : extract f s = .next t) :
    t.block = s.block := by
  rcases (extract_next f s t).mp h with ⟨_, rfl⟩ | ⟨_, p, _, rfl⟩ <;> rfl

/-- What reading a region can answer (R152). -/
theorem readNumber_cases (r : ByteString) :
    (∃ n, readNumber r = .val n) ∨ readNumber r = .err .badField ∨ readNumber r = .err .overflow := by
  unfold readNumber valResponse
  split_ifs <;> simp

/-- What `decode` can answer (R151). -/
theorem decodeField_cases (p tag unit : ByteString) :
    (∃ n, decodeField p tag unit = .val n) ∨ decodeField p tag unit = .err .badField ∨
      decodeField p tag unit = .err .overflow := by
  unfold decodeField
  split
  · exact .inl ⟨_, rfl⟩
  · exact readNumber_cases _

/-- What `fix6` can answer (R154). -/
theorem fix6_cases (p tag : ByteString) (off : Nat) :
    (∃ n, fix6 p tag off = .val n) ∨ fix6 p tag off = .err .badField := by
  unfold fix6 valResponse
  split
  · simp
  · split_ifs <;> simp

/-- Everything an operation that answers a next state can have done: one of the eight operations that write the block, or
a response and nothing else (10_state.md R20, the "written by" column). -/
theorem exec_cases (i : Instr) (s t : State) (h : exec i s = .next t) :
    (i = .rxSof ∧
      t = respond .none { restart s with ckcnt := 0, complete := false, valid := false, fst := .collect }) ∨
    (i = .rxCkm ∧
      t = respond .none
        { (if s.len < s.cfg.maxlen then append ckmByte s else s) with ckcnt := 0, fst := .rdck }) ∨
    (∃ b, i = .rxData b ∧ s.len < s.cfg.maxlen ∧ t = respond .none (append b s)) ∨
    (∃ b, i = .rxCkb b ∧
      t = respond .none { s with ckf := Memory.write s.ckf s.ckcnt.val b, ckcnt := s.ckcnt + 1 }) ∨
    (∃ b c, i = .rxCke b ∧ Memory.quad (Memory.write s.ckf 3 b) = some c ∧
      t = respond (.done (validFlag s.fcrc c))
        { s with ckf := Memory.write s.ckf 3 b, complete := true, valid := validFlag s.fcrc c, ckcnt := 0,
                 fst := .idle }) ∨
    (i = .crcClr ∧ t = respond .none { s with gcrc := crcInit }) ∨
    (∃ b, i = .crcUpd b ∧ t = respond .none { s with gcrc := crcByte s.gcrc b }) ∨
    (i = .reset ∧
      t = respond .none
        { s with gcrc := 0x0000#16, fcrc := 0x0000#16, fst := .idle, len := 0, ckcnt := 0, complete := false,
                 valid := false, buf := [], ckf := [] }) ∨
    (i ≠ .rxSof ∧ i ≠ .rxCkm ∧ (∀ b, i ≠ .rxData b) ∧ (∀ b, i ≠ .rxCkb b) ∧ (∀ b, i ≠ .rxCke b) ∧
      i ≠ .crcClr ∧ (∀ b, i ≠ .crcUpd b) ∧ i ≠ .reset ∧ ∃ x, t = respond x s) := by
  cases i <;> simp only [exec] at h
  case rxData => obtain ⟨h1, rfl⟩ := (execRxData_next _ _ _).mp h; simp [h1]
  case rxCke b => obtain ⟨c, hc, rfl⟩ := (execRxCke_next _ _ _).mp h; simp [hc]
  case frmRdb => rcases (execFrmRdb_next _ _ _).mp h with ⟨_, rfl⟩ | ⟨_, v, _, rfl⟩ <;> simp <;> exact ⟨_, rfl⟩
  case frmRdck => rcases (execFrmRdck_next _ _).mp h with ⟨_, rfl⟩ | ⟨_, v, _, rfl⟩ <;> simp <;> exact ⟨_, rfl⟩
  case extField => rcases (extract_next _ _ _).mp h with ⟨_, rfl⟩ | ⟨_, v, _, rfl⟩ <;> simp <;> exact ⟨_, rfl⟩
  case extDate => rcases (extract_next _ _ _).mp h with ⟨_, rfl⟩ | ⟨_, v, _, rfl⟩ <;> simp <;> exact ⟨_, rfl⟩
  case extTime => rcases (extract_next _ _ _).mp h with ⟨_, rfl⟩ | ⟨_, v, _, rfl⟩ <;> simp <;> exact ⟨_, rfl⟩
  all_goals (cases h; simp)
  all_goals exact ⟨_, rfl⟩

end Sys2Proof.Machine
end

