-- ==== Sys2Proof/Laws/Step.lean ====
section
/-! SUPPORT. Sys2Proof/Laws/Step.lean: decoding and one step. What a step can do, said once; one step of a run; and that a
table word presented to the block is the operation that the next step runs. -/

namespace Sys2Proof.Machine

/-- The decoder on a stream byte never rejects. -/
@[simp] theorem decode_rx (m : DecodeMode) (b : Byte) : decode m (.rx b) = .ok (decodeStream m b) := rfl

@[simp] theorem decode_host (m : DecodeMode) (r : HostRecord) : decode m (.host r) = decodeHost r := rfl

@[simp] theorem decode_reset (m : DecodeMode) : decode m .reset = .ok .reset := rfl

/-- The decoder's checks of an operand. -/
theorem checkTag_ok (tag : ByteString) (i j : Instr) :
    checkTag tag i = .ok j ↔ operandFits tag = true ∧ j = i := by
  unfold checkTag; cases operandFits tag <;> simp [@eq_comm _ j]

theorem checkTagUnit_ok (tag unit : ByteString) (i j : Instr) :
    checkTagUnit tag unit i = .ok j ↔ operandFits tag = true ∧ operandFits unit = true ∧ j = i := by
  unfold checkTagUnit; cases operandFits tag <;> cases operandFits unit <;> simp [@eq_comm _ j]

/-- A step with an operation still to come. -/
theorem step_cons (s : State) (inp : Input) (rest : List Input) (h : s.inputs = inp :: rest) :
    step s = match decode (decodeMode s) inp with
      | .ok i => exec i { s with inputs := rest }
      | .error e => .refused (.malformedRecord e) := by
  unfold step fetch; rw [h] <;> rfl

/-- A step with none. -/
theorem step_nil (s : State) (h : s.inputs = []) : step s = .next s := by
  unfold step fetch; rw [h]

/-- What a step that answers a next state has done: nothing, or one operation. -/
theorem step_next (s t : State) (h : step s = .next t) :
    (s.inputs = [] ∧ t = s) ∨
    ∃ inp rest i, s.inputs = inp :: rest ∧ decode (decodeMode s) inp = .ok i ∧
      exec i { s with inputs := rest } = .next t := by
  cases hi : s.inputs with
  | nil =>
    rw [step_nil s hi] at h
    simp only [Host.Outcome.next.injEq] at h
    exact .inl ⟨rfl, h.symm⟩
  | cons inp rest =>
    rw [step_cons s inp rest hi] at h
    cases hd : decode (decodeMode s) inp with
    | error e => simp [hd] at h
    | ok i => simp [hd] at h; exact .inr ⟨inp, rest, i, rfl, hd, h⟩

/-! ## Runs -/

@[simp] theorem run_zero (s : State) : run 0 s = .next s := rfl

/-- A run of one step more, from a step that answers a next state. -/
theorem run_succ_of_next (k : Nat) (s t : State) (h : step s = .next t) : run (k + 1) s = run k t := by
  simp [run, h]

/-- A run that answers a next state began with a step that does. -/
theorem run_succ_next (k : Nat) (s u : State) (h : run (k + 1) s = .next u) :
    ∃ t, step s = .next t ∧ run k t = .next u := by
  unfold run at h
  split at h
  · exact ⟨_, by assumption, h⟩
  · simp at h
  · simp at h

/-- Runs join. -/
theorem run_add (a b : Nat) (s t : State) (h : run a s = .next t) : run (a + b) s = run b t := by
  induction a generalizing s with
  | zero => simp at h; subst h; simp
  | succ a ih =>
    obtain ⟨u, h1, h2⟩ := run_succ_next a s t h
    rw [Nat.add_right_comm, run_succ_of_next _ s u h1, ih u h2]

/-! ## The host's table words (log 9) -/

/-- The step after `withFetchWord` decodes and runs the operation that `decodeTableWord` reads. -/
theorem step_withFetchWord (s : State) (nbits w : Nat) (i : Instr) (h : decodeTableWord nbits w = some i) :
    ∃ f, step (s.withFetchWord nbits w) = exec i { s with fst := f } := by
  unfold decodeTableWord at h
  unfold State.withFetchWord
  cases ht : tableInput nbits w with
  | none => simp [ht] at h
  | some inp =>
    simp only [ht] at h
    cases inp with
    | rx b =>
      simp only [decode_rx, Option.some.injEq] at h
      subst h
      refine ⟨if b = sofByte then s.fst else (tableMode (.rx b)).fst, ?_⟩
      rw [step_cons _ (.rx b) s.inputs rfl]
      simp only [decode_rx]
      congr 1
      unfold decodeStream decodeMode tableMode
      by_cases h1 : b = sofByte
      · simp [h1]
      · by_cases h2 : b = ckmByte
        · subst h2; simp [h1]
        · simp [h1, h2]
    | host r =>
      refine ⟨s.fst, ?_⟩
      rw [step_cons _ (.host r) s.inputs rfl]
      simp only [decode_host] at *
      cases hd : decodeHost r with
      | error e => simp [hd] at h
      | ok j => simp [hd] at h; subst h; rfl
    | reset =>
      simp at h
      subst h
      exact ⟨s.fst, rfl⟩

end Sys2Proof.Machine
end

