-- ==== Sys2Proof/Laws/PerInstr.lean ====
section
/-! SUPPORT. Sys2Proof/Laws/PerInstr.lean: families of facts about every operation as syntax, one lemma per constructor. -/

namespace Sys2Proof.Laws

/-- The encoding of a well-formed operation is one an agent can present: its byte strings have legal lengths
(30_encoding.md R80). -/
def EncodingFits.Statement (i : Instr) : Prop := i.wellFormed = true → (encode i).wellFormed = true

theorem EncodingFits.rxSof : EncodingFits.Statement .rxSof := fun _ => rfl
theorem EncodingFits.rxSkip (b : Byte) : EncodingFits.Statement (.rxSkip b) := fun _ => rfl
theorem EncodingFits.rxCkm : EncodingFits.Statement .rxCkm := fun _ => rfl
theorem EncodingFits.rxData (b : Byte) : EncodingFits.Statement (.rxData b) := fun _ => rfl
theorem EncodingFits.rxDrop (b : Byte) : EncodingFits.Statement (.rxDrop b) := fun _ => rfl
theorem EncodingFits.rxCkb (b : Byte) : EncodingFits.Statement (.rxCkb b) := fun _ => rfl
theorem EncodingFits.rxCke (b : Byte) : EncodingFits.Statement (.rxCke b) := fun _ => rfl
theorem EncodingFits.crcClr : EncodingFits.Statement .crcClr := fun _ => rfl
theorem EncodingFits.crcUpd (b : Byte) : EncodingFits.Statement (.crcUpd b) := fun _ => rfl
theorem EncodingFits.crcRd : EncodingFits.Statement .crcRd := fun _ => rfl
theorem EncodingFits.crcHex : EncodingFits.Statement .crcHex := fun _ => rfl
theorem EncodingFits.frmStat : EncodingFits.Statement .frmStat := fun _ => rfl
theorem EncodingFits.frmRdb (idx : BitVec 16) : EncodingFits.Statement (.frmRdb idx) := fun _ => rfl
theorem EncodingFits.frmRdck : EncodingFits.Statement .frmRdck := fun _ => rfl
theorem EncodingFits.extField (tag unit : ByteString) : EncodingFits.Statement (.extField tag unit) := fun h => h
theorem EncodingFits.extDate (tag : ByteString) : EncodingFits.Statement (.extDate tag) :=
  fun h => by simpa [encode, Input.wellFormed, hopRecord, operandFits, Instr.wellFormed] using h
theorem EncodingFits.extTime (tag : ByteString) : EncodingFits.Statement (.extTime tag) :=
  fun h => by simpa [encode, Input.wellFormed, hopRecord, operandFits, Instr.wellFormed] using h
theorem EncodingFits.hReserved (hop : BitVec 4) : EncodingFits.Statement (.hReserved hop) := fun _ => rfl
theorem EncodingFits.reset : EncodingFits.Statement .reset := fun _ => rfl

end Sys2Proof.Laws
end

