-- ==== Sys2Proof/Tests/Slice0.lean ====
section
/-! SUPPORT. Sys2Proof/Tests/Slice0.lean: the model's own tests. Expected results are the spec's worked examples
(95_test_vectors.md, labels S, V, T) or written out by hand from the rule named. Then, for every statement with hypotheses,
a concrete state and operands that meet them together. -/

namespace Sys2Proof.Tests

open Sys2Proof Sys2Proof.Machine

/-! ## Small states -/

/-- `MAXLEN = 4`. -/
def cfg4 : Config := ⟨4, by decide, by decide⟩

/-- `MAXLEN = 64`. -/
def cfg64 : Config := ⟨64, by decide, by decide⟩

/-- The array whose entries from `i` on hold the bytes of `s`. -/
def listed : Nat → ByteString → Memory
  | _, [] => []
  | i, b :: rest => (i, b) :: listed (i + 1) rest

/-- The framer after `captured` bytes of a frame and the checksum characters `ck`. -/
def framer (cfg : Config) (fst : Fst) (captured ck : ByteString) (ckcnt : Fin 4) (complete valid : Bool) : State :=
  { State.resetOf cfg with
    fcrc := crc16 captured, fst := fst, buf := listed 0 captured, len := captured.length, ckf := listed 0 ck,
    ckcnt := ckcnt, complete := complete, valid := valid }

/-- The next state, where there is one. -/
def after (r : Result) : Option State :=
  match r with
  | .next t => some t
  | _ => none

/-- The response, where there is a next state. -/
def answer (r : Result) : Option Response := (after r).map (fun t => t.resp)

/-- `"/A"` received (T-FRM row 3). -/
def sA : State := framer cfg4 .collect [0x2F, 0x41] [] 0 false false

/-- `"/ABC"` received with `MAXLEN = 4`: the buffer is full. -/
def sFull : State := framer cfg4 .collect [0x2F, 0x41, 0x42, 0x43] [] 0 false false

/-- `"/!28D"` received (V3). -/
def s28D : State := framer cfg4 .rdck [0x2F, 0x21] [0x32, 0x38, 0x44] 3 false false

/-- `"/!28DC"` received: the smallest telegram, complete and valid (V3). -/
def sDone : State := framer cfg4 .idle [0x2F, 0x21] [0x32, 0x38, 0x44, 0x43] 0 true true

/-- A valid frame whose content is `1(229.0*V)`. -/
def sField : State :=
  framer cfg64 .idle [0x2F, 0x31, 0x28, 0x32, 0x32, 0x39, 0x2E, 0x30, 0x2A, 0x56, 0x29, 0x21] [] 0 true true

/-- A valid frame whose content is `1(241231235959W)`. -/
def sDate : State :=
  framer cfg64 .idle
    [0x2F, 0x31, 0x28, 0x32, 0x34, 0x31, 0x32, 0x33, 0x31, 0x32, 0x33, 0x35, 0x39, 0x35, 0x39, 0x57, 0x29, 0x21]
    [] 0 true true

/-- A byte string one longer than an operand may be (R80). -/
def longOperand : ByteString := List.replicate 256 0x41#8

theorem longOperand_length : longOperand.length = 256 := List.length_replicate

/-! ## Well-formedness: each check refuses an ill-formed term -/

theorem test_wf_rxSkip_sof : (Instr.rxSkip 0x2F#8).wellFormed = false := by decide
theorem test_wf_rxData_sof : (Instr.rxData 0x2F#8).wellFormed = false := by decide
theorem test_wf_rxData_marker : (Instr.rxData 0x21#8).wellFormed = false := by decide
theorem test_wf_rxDrop_sof : (Instr.rxDrop 0x2F#8).wellFormed = false := by decide
theorem test_wf_rxDrop_marker : (Instr.rxDrop 0x21#8).wellFormed = false := by decide
theorem test_wf_rxCkb_sof : (Instr.rxCkb 0x2F#8).wellFormed = false := by decide
theorem test_wf_rxCke_sof : (Instr.rxCke 0x2F#8).wellFormed = false := by decide
theorem test_wf_extField_tag : (Instr.extField longOperand []).wellFormed = false := by
  simp [Instr.wellFormed, operandFits, patMax, longOperand_length]
theorem test_wf_extField_unit : (Instr.extField [] longOperand).wellFormed = false := by
  simp [Instr.wellFormed, operandFits, patMax, longOperand_length]
theorem test_wf_extDate_tag : (Instr.extDate longOperand).wellFormed = false := by
  simp [Instr.wellFormed, operandFits, patMax, longOperand_length]
theorem test_wf_extTime_tag : (Instr.extTime longOperand).wellFormed = false := by
  simp [Instr.wellFormed, operandFits, patMax, longOperand_length]
theorem test_wf_hReserved_named : (Instr.hReserved 0x5#4).wellFormed = false := by decide
theorem test_wf_longest_tag : (Instr.extDate (longOperand.drop 1)).wellFormed = true := by
  simp [Instr.wellFormed, operandFits, patMax, longOperand_length]
theorem test_wf_input_tag :
    (Input.host { hopRecord 0x1#4 with tag := longOperand }).wellFormed = false := by
  simp [Input.wellFormed, operandFits, patMax, longOperand_length]
theorem test_wf_input_unit :
    (Input.host { hopRecord 0x1#4 with unit := longOperand }).wellFormed = false := by
  simp [Input.wellFormed, operandFits, patMax, longOperand_length]

/-! ## Decoding: a word of every constructor, written out from R73 and R81 -/

theorem test_decode_rxSof : decode ⟨.collect, false, false⟩ (.rx 0b00101111#8) = .ok .rxSof := rfl
theorem test_decode_rxSkip : decode ⟨.idle, true, false⟩ (.rx 0b00001101#8) = .ok (.rxSkip 0x0D#8) := rfl
theorem test_decode_rxCkm : decode ⟨.collect, true, false⟩ (.rx 0b00100001#8) = .ok .rxCkm := rfl
theorem test_decode_rxData : decode ⟨.collect, true, false⟩ (.rx 0b01000001#8) = .ok (.rxData 0x41#8) := rfl
theorem test_decode_rxDrop : decode ⟨.collect, false, false⟩ (.rx 0b01000001#8) = .ok (.rxDrop 0x41#8) := rfl
theorem test_decode_rxCkb : decode ⟨.rdck, true, false⟩ (.rx 0b00100001#8) = .ok (.rxCkb 0x21#8) := rfl
theorem test_decode_rxCke : decode ⟨.rdck, false, true⟩ (.rx 0b00100001#8) = .ok (.rxCke 0x21#8) := rfl
theorem test_decode_crcClr : decode ⟨.idle, true, false⟩ (.host (hopRecord 0b0001#4)) = .ok .crcClr := rfl
theorem test_decode_crcUpd :
    decode ⟨.rdck, true, false⟩ (.host { hopRecord 0b0010#4 with b := 0xFF#8 }) = .ok (.crcUpd 0xFF#8) := rfl
theorem test_decode_crcRd : decode ⟨.idle, true, false⟩ (.host (hopRecord 0b0011#4)) = .ok .crcRd := rfl
theorem test_decode_crcHex : decode ⟨.idle, true, false⟩ (.host (hopRecord 0b0100#4)) = .ok .crcHex := rfl
theorem test_decode_frmStat : decode ⟨.idle, true, false⟩ (.host (hopRecord 0b0101#4)) = .ok .frmStat := rfl
theorem test_decode_frmRdb :
    decode ⟨.collect, true, false⟩ (.host { hopRecord 0b0110#4 with idx := 0xFFFF#16 }) =
      .ok (.frmRdb 0xFFFF#16) := rfl
theorem test_decode_frmRdck : decode ⟨.idle, true, false⟩ (.host (hopRecord 0b0111#4)) = .ok .frmRdck := rfl
theorem test_decode_extField :
    decode ⟨.idle, true, false⟩ (.host { hopRecord 0b1000#4 with tag := [0x28#8], unit := [0x2A#8] }) =
      .ok (.extField [0x28#8] [0x2A#8]) := rfl
theorem test_decode_extDate :
    decode ⟨.idle, true, false⟩ (.host { hopRecord 0b1001#4 with tag := [0x28#8] }) = .ok (.extDate [0x28#8]) := rfl
theorem test_decode_extTime :
    decode ⟨.idle, true, false⟩ (.host { hopRecord 0b1010#4 with tag := [0x28#8] }) = .ok (.extTime [0x28#8]) := rfl
theorem test_decode_hReserved_zero :
    decode ⟨.idle, true, false⟩ (.host (hopRecord 0b0000#4)) = .ok (.hReserved 0x0#4) := rfl
theorem test_decode_hReserved_eleven :
    decode ⟨.idle, true, false⟩ (.host (hopRecord 0b1011#4)) = .ok (.hReserved 0xB#4) := rfl
theorem test_decode_reset : decode ⟨.rdck, true, false⟩ .reset = .ok .reset := rfl
theorem test_decode_rejects_long_tag :
    decode ⟨.idle, true, false⟩ (.host { hopRecord 0b1001#4 with tag := longOperand }) =
      .error (.tagTooLong 256) := by
  simp [decodeHost, hopRecord, checkTag, operandFits, patMax, longOperand_length]
theorem test_decode_rejects_long_unit :
    decode ⟨.idle, true, false⟩ (.host { hopRecord 0b1000#4 with unit := longOperand }) =
      .error (.unitTooLong 256) := by
  simp [decodeHost, hopRecord, checkTagUnit, operandFits, patMax, longOperand_length]

/-! ## Table words (log 9) -/

theorem test_table_sof : decodeTableWord 8 0x2F = some .rxSof := by decide
theorem test_table_marker : decodeTableWord 8 0x21 = some .rxCkm := by decide
theorem test_table_hop_nibble : decodeTableWord 4 0x7 = some .frmRdck := by decide
theorem test_table_hop_byte : decodeTableWord 8 0xA = some (.extTime []) := by decide
theorem test_table_event : decodeTableWord 0 0 = some .reset := by decide
theorem test_fetch_marker :
    (after (step ((State.resetOf cfg4).withFetchWord 8 0x21))).map (fun t => (t.fst, t.len, t.inputs)) =
      some (.rdck, 1, []) := by decide
theorem test_fetch_hop : answer (step ((State.resetOf cfg4).withFetchWord 4 0x5)) = some (.stat 0x00#8 0#16) := by decide

/-! ## One step of each operation -/

/-- R121, its example. -/
theorem test_rxSof_from_rdck :
    (after (exec .rxSof (framer cfg4 .rdck [0x2F, 0x41, 0x21] [0x38, 0x31] 2 false false))).map
      (fun t => (t.fst, t.len, t.buf, t.fcrc, t.ckcnt)) = some (.collect, 1, [(0, 0x2F#8)], 0xDC41#16, 0) := by decide

/-- T-FRM row 19: the finished frame is superseded, its checksum is not written. -/
theorem test_rxSof_supersedes :
    (after (exec .rxSof sDone)).map (fun t => (t.complete, t.valid, t.ckf == sDone.ckf, t.len)) =
      some (false, false, true, 1) := by decide

/-- V3, the line terminator. -/
theorem test_rxSkip_keeps_frame : (after (exec (.rxSkip 0x0D#8) sDone)).map (fun t => t.block) = some sDone.block := by
  decide

/-- T-FRM row 4. -/
theorem test_rxCkm_stores :
    (after (exec .rxCkm sA)).map (fun t => (t.fst, t.len, t.fcrc, t.payload)) =
      some (.rdck, 3, 0x81C1#16, some [0x2F, 0x41, 0x21]) := by decide

/-- R125 corner case 2. -/
theorem test_rxCkm_full :
    (after (exec .rxCkm sFull)).map (fun t => (t.fst, t.len, t.fcrc == sFull.fcrc, t.buf == sFull.buf)) =
      some (.rdck, 4, true, true) := by decide

/-- R123, its example. -/
theorem test_rxData_appends :
    (after (exec (.rxData 0x41#8) (framer cfg4 .collect [0x2F] [] 0 false false))).map
      (fun t => (t.fst, t.len, t.fcrc, t.payload)) = some (.collect, 2, 0x00DC#16, some [0x2F, 0x41]) := by decide

/-- R123, the last free entry. -/
theorem test_rxData_fills :
    (after (exec (.rxData 0xFF#8) (framer cfg4 .collect [0x2F, 0x41, 0x42] [] 0 false false))).map
      (fun t => (t.len, Memory.read t.buf 3)) = some (4, some 0xFF#8) := by decide

/-- R124, its example. -/
theorem test_rxDrop_changes_nothing :
    (after (exec (.rxDrop 0x48#8) sFull)).map (fun t => t.block) = some sFull.block := by decide

/-- T-FRM row 5. -/
theorem test_rxCkb_first :
    (after (exec (.rxCkb 0x33#8) (framer cfg4 .rdck [0x2F, 0x41, 0x21] [] 0 false false))).map
      (fun t => (t.ckcnt, t.ckf, t.len, t.fcrc)) = some (1, [(0, 0x33#8)], 3, 0x81C1#16) := by decide

/-- T-FRM row 21: the third of four; what an earlier frame left there is replaced. -/
theorem test_rxCkb_third :
    (after (exec (.rxCkb 0x43#8) (framer cfg4 .rdck [0x2F, 0x41, 0x21] [0x38, 0x31, 0x44, 0x45] 2 false false))).map
      (fun t => (t.fst, t.ckcnt, Memory.read t.ckf 2, Memory.read t.ckf 3)) =
        some (.rdck, 3, some 0x43#8, some 0x45#8) := by decide

/-- T-FRM row 9, lower case. -/
theorem test_rxCke_match :
    (after (exec (.rxCke 0x63#8) s28D)).map (fun t => (t.resp, t.fst, t.complete, t.valid, t.ckcnt)) =
      some (.done true, .idle, true, true, 0) := by decide

/-- T-FRM row 12: no hexadecimal digit, no error. -/
theorem test_rxCke_mismatch :
    (after (exec (.rxCke 0x47#8) s28D)).map (fun t => (t.resp, t.complete, t.valid, Memory.quad t.ckf)) =
      some (.done false, true, false, some ⟨0x32, 0x38, 0x44, 0x47⟩) := by decide

/-- R104. -/
theorem test_crcClr : (after (exec .crcClr { sA with gcrc := 0xBB3D#16 })).map (fun t => (t.gcrc, t.fcrc)) =
    some (0x0000#16, 0x00DC#16) := by decide

/-- T-CRC row 2. -/
theorem test_crcUpd_one : (after (exec (.crcUpd 0x01#8) (State.resetOf cfg4))).map (fun t => t.gcrc) =
    some 0xC0C1#16 := by decide

/-- T-CRC row 25, the last byte. -/
theorem test_crcUpd_nine :
    (after (exec (.crcUpd 0x39#8) { sA with gcrc := 0x3C9D#16 })).map (fun t => (t.gcrc, t.fcrc)) =
      some (0xBB3D#16, 0x00DC#16) := by decide

/-- T-CRC row 29. -/
theorem test_crc16_string : crc16 [0x2F, 0x00, 0xFF, 0x21] = 0x3C89#16 := by decide

/-- R106. -/
theorem test_crcRd : answer (exec .crcRd { sA with gcrc := 0xBB3D#16 }) = some (.word 0xBB3D#16) := by decide

/-- T-HEX rows 2 and 6: leading zeros, upper case. -/
theorem test_crcHex_leading_zeros :
    answer (exec .crcHex { sA with gcrc := 0x00BB#16 }) = some (.hex ⟨0x30, 0x30, 0x42, 0x42⟩) := by decide
theorem test_crcHex_order :
    answer (exec .crcHex { sA with gcrc := 0x091B#16 }) = some (.hex ⟨0x30, 0x39, 0x31, 0x42⟩) := by decide

/-- T-HOST. -/
theorem test_frmStat_rdck :
    answer (exec .frmStat (framer cfg4 .rdck [0x2F, 0x41, 0x21] [0x31, 0x32] 2 false false)) =
      some (.stat 0x22#8 3#16) := by decide
theorem test_frmStat_done : answer (exec .frmStat sDone) = some (.stat 0x0C#8 2#16) := by decide

/-- T-HOST, the last byte and the first index beyond, before the frame is complete. -/
theorem test_frmRdb_last :
    answer (exec (.frmRdb 2#16) (framer cfg4 .rdck [0x2F, 0x41, 0x21] [] 0 false false)) = some (.byte 0x21#8) := by
  decide
theorem test_frmRdb_beyond :
    answer (exec (.frmRdb 3#16) (framer cfg4 .rdck [0x2F, 0x41, 0x21] [] 0 false false)) =
      some (.err .badIndex) := by decide

/-- T-HOST. -/
theorem test_frmRdck_done : answer (exec .frmRdck sDone) = some (.hex ⟨0x32, 0x38, 0x44, 0x43⟩) := by decide
theorem test_frmRdck_three : answer (exec .frmRdck s28D) = some (.err .notReady) := by decide

/-- S3: `229.0` reads 2290. -/
theorem test_extField_value :
    answer (exec (.extField [0x31, 0x28] [0x2A, 0x56, 0x29]) sField) = some (.val 2290#32) := by decide

/-- T-HOST: not valid, whatever the operands. -/
theorem test_extField_notReady : answer (exec (.extField [] []) { sField with valid := false }) =
    some (.err .notReady) := by decide

/-- S2. -/
theorem test_extDate_value : answer (exec (.extDate [0x31, 0x28]) sDate) = some (.val 241231#32) := by decide
theorem test_extTime_value : answer (exec (.extTime [0x31, 0x28]) sDate) = some (.val 235959#32) := by decide

/-- T-FIX row 5: a byte that is no digit; T-FIX row 3: the tag is absent. -/
theorem test_extDate_badField : answer (exec (.extDate [0x31, 0x28]) sField) = some (.err .badField) := by decide
theorem test_extTime_absent : answer (exec (.extTime [0x38]) sField) = some (.val 0#32) := by decide

/-- T-HOST. -/
theorem test_hReserved : (after (exec (.hReserved 0xF#4) sDone)).map (fun t => (t.resp, t.block)) =
    some (.err .badOp, sDone.block) := by decide

/-- T-RST. -/
theorem test_reset :
    (after (exec .reset { sDone with gcrc := 0xBB3D#16 })).map (fun t => (t.block, t.resp)) =
      some ((State.resetOf cfg4).block, .none) := by decide

/-! ## The functions (T-HEX, T-NUM, T-EXT) -/

theorem test_cmpci_case : cmpci ⟨0x32, 0x38, 0x44, 0x43⟩ ⟨0x32, 0x38, 0x44, 0x63⟩ = true := by decide
theorem test_cmpci_order : cmpci ⟨0x32, 0x38, 0x44, 0x43⟩ ⟨0x44, 0x43, 0x32, 0x38⟩ = false := by decide
theorem test_upper_edges : [0x61, 0x7A, 0x60, 0x7B, 0x41, 0xE1].map upper = [0x41, 0x5A, 0x60, 0x7B, 0x41, 0xE1] := by
  decide
/-- T-NUM: the largest value, `2^32`, the point alone, two points, and a letter after twelve nines. -/
theorem test_number_largest :
    readNumber [0x34, 0x32, 0x39, 0x34, 0x39, 0x36, 0x37, 0x2E, 0x32, 0x39, 0x35] = .val 4294967295#32 := by decide
theorem test_number_overflow :
    readNumber [0x34, 0x32, 0x39, 0x34, 0x39, 0x36, 0x37, 0x2E, 0x32, 0x39, 0x36] = .err .overflow := by decide
theorem test_number_point : readNumber [0x2E] = .val 0#32 := by decide
theorem test_number_points : readNumber [0x31, 0x2E, 0x32, 0x2E, 0x33] = .err .badField := by decide
theorem test_number_letter_first :
    readNumber [0x39, 0x39, 0x39, 0x39, 0x39, 0x39, 0x39, 0x39, 0x39, 0x39, 0x39, 0x39, 0x78] = .err .badField := by
  decide
theorem test_find_overlap : find [0x41, 0x41, 0x42] [0x41, 0x42] 0 = some 1 := by decide
theorem test_find_empty_at_end : find [0x41] [] 1 = some 1 := by decide
theorem test_find_beyond : find [0x41] [] 2 = none := by decide

/-! ## Witnesses: for every statement with hypotheses, states and operands that meet them together -/

/-- `s` with the operations `l` still to come. -/
def State.coming (s : State) (l : List Input) : State := { s with inputs := l }

/-- The invariant holds of the smallest telegram, complete and valid. -/
theorem inv_sDone : Inv sDone where
  buf_wf := by decide
  ckf_wf := by decide
  len_le := by decide
  buf_holds i := by
    simp only [sDone, framer, listed, Memory.read_cons, Memory.read_nil]
    split_ifs <;> simp <;> omega
  ckf_positions i h := by
    simp only [sDone, framer, listed, Memory.read_cons, Memory.read_nil]
    split_ifs <;> first | rfl | omega
  ckf_holds i h := absurd h (Nat.not_lt_zero i)
  valid_complete _ := rfl
  complete_idle _ := rfl
  busy h := absurd rfl h
  start_byte _ := rfl
  ckcnt_zero _ := rfl
  fcrc_payload := ⟨[0x2F, 0x21], rfl, rfl⟩
  complete_checked _ := ⟨[0x2F, 0x21], ⟨0x32, 0x38, 0x44, 0x43⟩, rfl, rfl, by decide⟩
  start_only_first i h := by
    simp only [sDone, framer, listed, Memory.read_cons, Memory.read_nil]
    split_ifs <;> first | decide | omega
  marker_only_last i h := by
    simp only [sDone, framer, listed, Memory.read_cons, Memory.read_nil, List.length_cons,
      List.length_nil] at h ⊢
    split_ifs <;> first | decide | omega
  no_marker_yet h := absurd h (by decide)

/-- The invariant holds of a frame that waits for its fourth checksum character. -/
theorem inv_s28D : Inv s28D where
  buf_wf := by decide
  ckf_wf := by decide
  len_le := by decide
  buf_holds i := by
    simp only [s28D, framer, listed, Memory.read_cons, Memory.read_nil]
    split_ifs <;> simp <;> omega
  ckf_positions i h := by
    simp only [s28D, framer, listed, Memory.read_cons, Memory.read_nil]
    split_ifs <;> first | rfl | omega
  ckf_holds i h := by
    have : i < 3 := h
    simp only [s28D, framer, listed, Memory.read_cons, Memory.read_nil]
    split_ifs <;> first | rfl | omega
  valid_complete h := absurd h (by decide)
  complete_idle h := absurd h (by decide)
  busy _ := by decide
  start_byte _ := rfl
  ckcnt_zero h := absurd rfl h
  fcrc_payload := ⟨[0x2F, 0x21], rfl, rfl⟩
  complete_checked h := absurd h (by decide)
  start_only_first i h := by
    simp only [s28D, framer, listed, Memory.read_cons, Memory.read_nil]
    split_ifs <;> first | decide | omega
  marker_only_last i h := by
    simp only [s28D, framer, listed, Memory.read_cons, Memory.read_nil, List.length_cons,
      List.length_nil] at h ⊢
    split_ifs <;> first | decide | omega
  no_marker_yet h := absurd h (by decide)

/-- The invariant does not speak of the operations still to come. -/
theorem inv_coming {s : State} (h : Inv s) (l : List Input) : Inv (State.coming s l) :=
  ⟨h.buf_wf, h.ckf_wf, h.len_le, h.buf_holds, h.ckf_positions, h.ckf_holds, h.valid_complete, h.complete_idle, h.busy,
    h.start_byte, h.ckcnt_zero, h.fcrc_payload, h.complete_checked, h.start_only_first, h.marker_only_last,
    h.no_marker_yet⟩

/-- The register after `k` bits of `b`, from `c`. -/
def bits (c : CrcWord) (b : Byte) : Nat → CrcWord
  | 0 => c
  | k + 1 => crcBit (bits c b k) (b.getLsbD k)

theorem witness_CrcUpdFeedsEightBits :
    ∃ (s : State) (b : Byte) (c : Nat → CrcWord), c 0 = s.gcrc ∧ ∀ k, k < 8 →
      c (k + 1) = (c k >>> 1) ^^^ (if ((c k).getLsbD 0 ^^ b.getLsbD k) = true then 0xA001#16 else 0x0000#16) :=
  ⟨{ sA with gcrc := 0x8001#16 }, 0x81#8, bits 0x8001#16 0x81#8, rfl, by intro k _; rfl⟩

/-- The register of the software form after `k` steps. -/
def software (r : CrcWord) : Nat → CrcWord
  | 0 => r
  | k + 1 => if (software r k).getLsbD 0 = true then (software r k >>> 1) ^^^ 0xA001#16 else software r k >>> 1

theorem witness_CrcByteSoftwareAndTableForms :
    ∃ (c : CrcWord) (b : Byte) (r : Nat → CrcWord), r 0 = c ^^^ b.setWidth 16 ∧
      ∀ k, k < 8 → r (k + 1) = if (r k).getLsbD 0 = true then (r k >>> 1) ^^^ 0xA001#16 else r k >>> 1 :=
  ⟨0xDC41#16, 0x41#8, software (0xDC41#16 ^^^ (0x41#8 : Byte).setWidth 16), rfl, by intro k _; rfl⟩

theorem witness_CrcOfStringsIsLinear :
    ∃ s t : ByteString, s.length = t.length ∧ s ≠ t := ⟨[0x2F, 0x41], [0x78, 0x79], rfl, by decide⟩

theorem witness_GcrcIsTheCrcOfTheSuppliedBytes :
    ∃ (n : Nat) (s t : State) (rest : List Input), s.inputs = encode .crcClr :: rest ∧ run (n + 1) s = .next t ∧
      (∀ inp ∈ rest.take n, keepsGcrc inp = true) ∧ updBytes (rest.take n) = [0x31#8] :=
  ⟨2, State.coming sA [encode .crcClr, .rx 0x42#8, encode (.crcUpd 0x31#8)], _,
    [.rx 0x42#8, encode (.crcUpd 0x31#8)], rfl, rfl, by decide, rfl⟩

theorem witness_GcrcIsTheCrcOfTheSuppliedBytes_from_any_state :
    ∃ (n : Nat) (s t : State), run n s = .next t ∧ (∀ inp ∈ s.inputs.take n, keepsGcrc inp = true) ∧
      updBytes (s.inputs.take n) = [0x31#8] :=
  ⟨2, State.coming sA [.rx 0x2F#8, encode (.crcUpd 0x31#8)], _, rfl, by decide, rfl⟩

theorem witness_HexTextOfAWord : (0 < 4 ∧ 3 < 4) ∧ quadList (hex4 0x91B0#16) = [0x39, 0x31, 0x42, 0x30] := by decide

theorem witness_RxSofEmptiesTheRestOfTheBuffer :
    ∃ t, exec .rxSof sFull = .next t ∧ Memory.read sFull.buf 1 ≠ none := ⟨_, rfl, by decide⟩

theorem witness_RxDataAppendsOneByte : ∃ s : State, s.len < s.cfg.maxlen ∧ s.len + 1 = s.cfg.maxlen :=
  ⟨framer cfg4 .collect [0x2F, 0x41, 0x42] [] 0 false false, by decide, rfl⟩

theorem witness_RxCkmBeginsChecksumReading :
    ∃ s t : State, s.len + 1 = s.cfg.maxlen ∧ s.len < s.cfg.maxlen ∧ t.cfg.maxlen ≤ t.len :=
  ⟨framer cfg4 .collect [0x2F, 0x41, 0x42] [] 0 false false, sFull, rfl, by decide, by decide⟩

theorem witness_RxCkbCapturesOneChecksumByte : ∃ s t : State, s.ckcnt.val = 0 ∧ s.ckcnt.val < 3 ∧ t.ckcnt.val = 2 ∧ t.ckcnt.val < 3 :=
  ⟨sA, framer cfg4 .rdck [0x2F, 0x21] [0x32, 0x38] 2 false false, by decide⟩

theorem witness_RxCkeCompletesAndValidates :
    ∃ (s : State) (c0 c1 c2 : Byte), Memory.read s.ckf 0 = some c0 ∧ Memory.read s.ckf 1 = some c1 ∧
      Memory.read s.ckf 2 = some c2 := ⟨s28D, 0x32, 0x38, 0x44, rfl, rfl, rfl⟩

theorem witness_CompletionChecksExactlyTheCapture :
    ∃ (s t : State) (b : Byte) (rest : List Input) (v : Bool), Inv s ∧ s.inputs = .rx b :: rest ∧ step s = .next t ∧
      t.resp = .done v := ⟨State.coming s28D [.rx 0x43#8], _, 0x43#8, [], true, inv_coming inv_s28D _, rfl, rfl, by decide⟩

theorem witness_LenFallsOnlyAtFrameStartOrReset :
    (∃ s t : State, Inv s ∧ step s = .next t ∧ t.len < s.len ∧ s.inputs = [.rx 0x2F#8]) ∧
    (∃ s t : State, Inv s ∧ step s = .next t ∧ t.len < s.len ∧ s.inputs = [.reset]) :=
  ⟨⟨State.coming sDone [.rx 0x2F#8], _, inv_coming inv_sDone _, rfl, by decide, rfl⟩,
    ⟨State.coming sDone [.reset], _, inv_coming inv_sDone _, rfl, by decide, rfl⟩⟩

theorem witness_OnlyTheseOperationsWriteTheFlags :
    (∃ t, exec (.rxCke 0x43#8) s28D = .next t) ∧ (∃ t, exec .rxSof sDone = .next t) ∧
    (∃ t, exec .reset sDone = .next t) ∧ (∃ t, exec (.rxSkip 0x0D#8) sDone = .next t) :=
  ⟨⟨_, rfl⟩, ⟨_, rfl⟩, ⟨_, rfl⟩, ⟨_, rfl⟩⟩

theorem witness_OnlyRxWritesTheBuffer :
    (∃ t, exec .rxCkm sA = .next t ∧ Memory.read t.buf 2 = some 0x21#8 ∧ Memory.read sA.buf 2 ≠ some 0x21#8) ∧
    (∃ t, exec (.rxData 0x42#8) sA = .next t ∧ (1 : Nat) < sA.len) ∧
    (isHost (encode .frmStat) = true ∧ ∃ t, exec .frmStat sA = .next t) :=
  ⟨⟨_, rfl, by decide, by decide⟩, ⟨_, rfl, by decide⟩, rfl, _, rfl⟩

theorem witness_FullBufferSaturates :
    ∃ (s : State) (rest : List Input), s.inputs = .rx 0x48#8 :: rest ∧ s.fst = .collect ∧ s.len = s.cfg.maxlen ∧
      (0x48#8 : Byte) ≠ 0x2F#8 ∧ (0x21#8 : Byte) ≠ 0x2F#8 :=
  ⟨State.coming sFull [.rx 0x48#8], [], rfl, rfl, rfl, by decide, by decide⟩

theorem witness_StreamByteTransitions :
    ∃ (s t : State) (rest : List Input), s.inputs = .rx 0x43#8 :: rest ∧ step s = .next t ∧ s.fst = .rdck ∧
      s.ckcnt.val = 3 := ⟨State.coming s28D [.rx 0x43#8], _, [], rfl, rfl, rfl, rfl⟩

theorem witness_RxIsAlwaysAccepted :
    ∃ (s : State) (b : Byte) (rest : List Input), Inv s ∧ s.inputs = .rx b :: rest :=
  ⟨State.coming s28D [.rx 0x43#8], 0x43#8, [], inv_coming inv_s28D _, rfl⟩

theorem witness_CompleteFrameSurvivesOtherBytes :
    ∃ (s : State) (b : Byte) (rest : List Input), Inv s ∧ s.complete = true ∧ s.inputs = .rx b :: rest ∧ b ≠ 0x2F#8 :=
  ⟨State.coming sDone [.rx 0x21#8], 0x21#8, [], inv_coming inv_sDone _, rfl, rfl, by decide⟩

theorem witness_StampedFrameValidates :
    ∃ (s : State) (content : ByteString) (q : Quad) (rest : List Input),
      (∀ b ∈ content, b ≠ 0x2F#8 ∧ b ≠ 0x21#8) ∧ content.length + 2 = s.cfg.maxlen ∧
      content.length + 2 ≤ s.cfg.maxlen ∧
      SameDigit (hex4 (crc16 (0x2F#8 :: content ++ [0x21#8]))).c0 q.c0 ∧
      SameDigit (hex4 (crc16 (0x2F#8 :: content ++ [0x21#8]))).c1 q.c1 ∧
      SameDigit (hex4 (crc16 (0x2F#8 :: content ++ [0x21#8]))).c2 q.c2 ∧
      SameDigit (hex4 (crc16 (0x2F#8 :: content ++ [0x21#8]))).c3 q.c3 ∧
      s.inputs = (0x2F#8 :: content ++ [0x21#8] ++ quadList q).map Input.rx ++ rest :=
  ⟨State.coming (framer cfg4 .rdck [0x2F, 0x41, 0x21] [0x38, 0x31] 2 false false)
      ([0x2F, 0x00, 0xFF, 0x21, 0x33, 0x63, 0x38, 0x39].map Input.rx),
    [0x00, 0xFF], ⟨0x33, 0x63, 0x38, 0x39⟩, [], by decide, rfl, by decide, .inl (by decide),
    .inr (by decide), .inl (by decide), .inl (by decide), rfl⟩

theorem witness_HostOperationsCannotDisturbTheFramer :
    ∃ (n : Nat) (s t u : State) (rest : List Input), run n s = .next t ∧ SameFramer s u ∧
      u.inputs = (s.inputs.take n).filter (fun inp => !isHost inp) ++ rest ∧ s.inputs.length = 3 ∧ u.inputs.length = 2 :=
  ⟨3, State.coming sA [encode (.crcUpd 0x31#8), .rx 0x21#8, encode .frmStat], _,
    State.coming { sA with gcrc := 0x1234#16 } [.rx 0x21#8, .reset], [.reset], rfl, ⟨rfl, rfl⟩, rfl, rfl, rfl⟩

theorem witness_FindGivesTheFirstOccurrence : ∃ n : ByteString, n = [] := ⟨[], rfl⟩

theorem witness_ReadingARegionAsANumber :
    (∃ b ∈ ([0x2D, 0x30] : ByteString), b ≠ 0x2E#8 ∧ (b.toNat < 0x30 ∨ 0x39 < b.toNat)) ∧
    (∃ b ∈ ([0x3A] : ByteString), b ≠ 0x2E#8 ∧ (b.toNat < 0x30 ∨ 0x39 < b.toNat)) ∧
    1 < ([0x2E, 0x2E] : ByteString).count 0x2E#8 ∧
    ((∀ b ∈ ([0x30, 0x2E, 0x39] : ByteString), b = 0x2E#8 ∨ (0x30 ≤ b.toNat ∧ b.toNat ≤ 0x39)) ∧
      ([0x30, 0x2E, 0x39] : ByteString).count 0x2E#8 ≤ 1 ∧ digitSum [0x30, 0x39] < 2 ^ 32) ∧
    digitSum [0x34, 0x32, 0x39, 0x34, 0x39, 0x36, 0x37, 0x32, 0x39, 0x35] = 2 ^ 32 - 1 ∧
    2 ^ 32 ≤ digitSum [0x34, 0x32, 0x39, 0x34, 0x39, 0x36, 0x37, 0x32, 0x39, 0x36] := by decide

theorem firstAt_one : FirstAt [0x2F, 0x41, 0x42] [0x41] 0 1 := by
  refine ⟨by decide, by unfold OccursAt; decide, ?_⟩
  intro j _ h
  interval_cases j
  unfold OccursAt; decide

theorem firstAt_unit : FirstAt [0x2F, 0x41, 0x42] [0x42] 2 2 := by
  refine ⟨by decide, by unfold OccursAt; decide, ?_⟩
  intro j h1 h2
  omega

theorem absent_tag : Absent [0x2F, 0x41, 0x42] [0x43] 0 := by
  intro j _ h
  have : j < 3 := h.1
  revert h
  interval_cases j <;> (unfold OccursAt; decide)

theorem absent_unit : Absent [0x2F, 0x41, 0x42] [0x2F] 2 := by
  intro j h1 h
  have : j < 3 := h.1
  revert h
  interval_cases j
  unfold OccursAt; decide

theorem witness_DecodeReadsTheFirstMatch :
    (∃ p tag : ByteString, Absent p tag 0) ∧
    (∃ (p tag unit : ByteString) (t : Nat), FirstAt p tag 0 t ∧ Absent p unit (t + tag.length)) ∧
    (∃ (p tag unit : ByteString) (t u : Nat), FirstAt p tag 0 t ∧ FirstAt p unit (t + tag.length) u) :=
  ⟨⟨_, _, absent_tag⟩, ⟨_, _, _, _, firstAt_one, absent_unit⟩, ⟨_, _, _, _, _, firstAt_one, firstAt_unit⟩⟩

theorem firstAt_start (p : ByteString) (b : Byte) : FirstAt (b :: p) [b] 0 0 :=
  ⟨by decide, ⟨by simp, by simp⟩, fun j _ h => absurd h (Nat.not_lt_zero j)⟩

/-- Each clause at its boundary: five bytes are one too few, six are enough, and one of six is `:`. -/
theorem witness_SixDigitsAfterTheTag :
    (∃ p tag : ByteString, Absent p tag 0) ∧
    (∃ p tag : ByteString, FirstAt p tag 0 0 ∧ p.length + 1 = 0 + tag.length + 0 + 6 ∧
      p.length < 0 + tag.length + 0 + 6) ∧
    (∃ p tag : ByteString, FirstAt p tag 0 0 ∧ p.length = 0 + tag.length + 0 + 6 ∧
      ∃ b ∈ (p.drop (0 + tag.length + 0)).take 6, b.toNat < 0x30 ∨ 0x39 < b.toNat) ∧
    (∃ p tag : ByteString, FirstAt p tag 0 0 ∧ 0 + tag.length + 0 + 6 = p.length ∧
      ∀ b ∈ (p.drop (0 + tag.length + 0)).take 6, 0x30 ≤ b.toNat ∧ b.toNat ≤ 0x39) ∧
    (∃ p tag : ByteString, FirstAt p tag 0 0 ∧ 0 + tag.length + 6 + 6 = p.length ∧
      ∀ b ∈ (p.drop (0 + tag.length + 6)).take 6, 0x30 ≤ b.toNat ∧ b.toNat ≤ 0x39) :=
  ⟨⟨_, _, absent_tag⟩,
    ⟨[0x28, 0x32, 0x34, 0x31, 0x32, 0x33], [0x28], firstAt_start _ _, rfl, by decide⟩,
    ⟨[0x28, 0x32, 0x34, 0x31, 0x32, 0x33, 0x3A], [0x28], firstAt_start _ _, rfl, by decide⟩,
    ⟨[0x28, 0x32, 0x34, 0x31, 0x32, 0x33, 0x31], [0x28], firstAt_start _ _, rfl, by decide⟩,
    ⟨[0x28, 0x2F, 0x34, 0x31, 0x32, 0x33, 0x31, 0x32, 0x33, 0x35, 0x39, 0x35, 0x39], [0x28], firstAt_start _ _, rfl,
      by decide⟩⟩

theorem witness_ExtractionsAnswerFromTheValidFrame :
    (∃ (s : State) (p : ByteString), s.valid = true ∧ s.payload = some p) ∧
    (∃ s : State, s.valid = false ∧ s.complete = true) :=
  ⟨⟨sDone, [0x2F, 0x21], rfl, rfl⟩, ⟨{ sDone with valid := false }, rfl, rfl⟩⟩

theorem witness_ExtractionIsRefusedUnlessValid :
    (∃ (s : State) (r : HostRecord) (rest : List Input), s.valid = false ∧ s.inputs = .host r :: rest ∧
      operandFits r.tag = true ∧ operandFits r.unit = true ∧ r.hop = 0xA#4) ∧
    (∃ (s : State) (rest : List Input), s.inputs = .rx 0x2F#8 :: rest ∧ s.valid = true) :=
  ⟨⟨State.coming sA [.host (hopRecord 0xA#4)], hopRecord 0xA#4, [], rfl, rfl, by decide, by decide, rfl⟩,
    ⟨State.coming sDone [.rx 0x2F#8], [], rfl, rfl⟩⟩

theorem witness_ExtractorHasNoState :
    ∃ (s t u : State), exec (.extField [0x31, 0x28] [0x2A]) s = .next t ∧ u.valid = s.valid ∧ u.len = s.len ∧
      (∀ a, a < s.len → Memory.read u.buf a = Memory.read s.buf a) ∧ u.gcrc ≠ s.gcrc ∧ u.ckf ≠ s.ckf :=
  ⟨sField, _, { sField with gcrc := 0x1#16, ckf := [(0, 0x30#8)] }, rfl, rfl, rfl, fun _ _ => rfl, by decide, by decide⟩

theorem witness_FrmRdbReadsBelowLen :
    (∃ v, (1#16 : BitVec 16).toNat + 1 = sDone.len ∧ (1#16 : BitVec 16).toNat < sDone.len ∧
      Memory.read sDone.buf (1#16 : BitVec 16).toNat = some v) ∧ sDone.len ≤ (2#16 : BitVec 16).toNat :=
  ⟨⟨0x21#8, by decide⟩, by decide⟩

theorem witness_FrmRdckReadsTheCompletedChecksum :
    (sDone.complete = true ∧ Memory.read sDone.ckf 0 = some 0x32#8 ∧ Memory.read sDone.ckf 1 = some 0x38#8 ∧
      Memory.read sDone.ckf 2 = some 0x44#8 ∧ Memory.read sDone.ckf 3 = some 0x43#8) ∧ s28D.complete = false := by
  decide

theorem witness_ReservedCodesAnswerBadOp :
    (∃ r : HostRecord, r.hop = 0x0#4) ∧ (∃ r : HostRecord, 0xB#4 ≤ r.hop ∧ r.hop = 0xB#4) ∧
    (∃ (s : State) (r : HostRecord) (rest : List Input), 0xB#4 ≤ r.hop ∧ s.inputs = .host r :: rest) :=
  ⟨⟨hopRecord 0x0#4, rfl⟩, ⟨hopRecord 0xB#4, by decide, rfl⟩,
    ⟨State.coming sDone [.host (hopRecord 0xF#4)], hopRecord 0xF#4, [], by decide, rfl⟩⟩

theorem witness_ErrorResponsesChangeNothing :
    ∃ t, exec (.frmRdb 2#16) sDone = .next t ∧ t.resp = .err .badIndex := ⟨_, rfl, by decide⟩

theorem witness_ErrorCodesComeFromTheirOperations :
    (∃ t, exec .frmRdck s28D = .next t ∧ t.resp = .err .notReady) ∧
    (∃ t, exec (.extDate [0x31, 0x28]) sField = .next t ∧ t.resp = .err .badField) ∧
    (∃ t, exec (.hReserved 0x0#4) sDone = .next t ∧ t.resp = .err .badOp) :=
  ⟨⟨_, rfl, by decide⟩, ⟨_, rfl, by decide⟩, ⟨_, rfl, by decide⟩⟩

theorem witness_ErrorCodesComeFromTheirOperations_overflow :
    ∃ (s t : State), exec (.extField [0x2F] [0x21]) s = .next t ∧ t.resp = .err .overflow :=
  ⟨framer cfg64 .idle
      [0x2F, 0x34, 0x32, 0x39, 0x34, 0x39, 0x36, 0x37, 0x32, 0x39, 0x36, 0x21] [] 0 true true, _, rfl, by decide⟩

/-- The model's stops (log 4, log 5, log 7), in states no run reaches or at an operation the decoder does not give there. -/
theorem witness_OperationsStopOnlyWhereNoValueIsHeld :
    exec (.rxData 0x41#8) sFull = .fault (.outsideBuffer 4) ∧
    exec (.rxCke 0x41#8) sA = .fault .checksumHasNoValue ∧
    exec .frmRdck { sA with complete := true } = .fault .checksumHasNoValue ∧
    exec (.frmRdb 2#16) { sA with len := 3 } = .fault .bufferHasNoValue ∧
    exec (.extDate []) { sA with len := 3, valid := true } = .fault .bufferHasNoValue :=
  ⟨rfl, rfl, rfl, rfl, rfl⟩

theorem witness_TheTwoCrcRegistersAreIndependent :
    (∃ t, exec .crcRd sA = .next t) ∧ (∃ t, exec (.crcUpd 0x31#8) sA = .next t) ∧
    ((∃ b, encode (.rxData 0x42#8) = .rx b) ∧ ∃ t, exec (.rxData 0x42#8) sA = .next t) :=
  ⟨⟨_, rfl⟩, ⟨_, rfl⟩, ⟨_, rfl⟩, _, rfl⟩

theorem witness_NoOperationWritesParameterOrInputs :
    ∃ t, exec .reset (State.coming sDone [.reset]) = .next t := ⟨_, rfl⟩

theorem witness_StepKeepsTheInvariant : ∃ s t : State, Inv s ∧ step s = .next t ∧ s.inputs = [.rx 0x43#8] :=
  ⟨State.coming s28D [.rx 0x43#8], _, inv_coming inv_s28D _, rfl, rfl⟩

theorem witness_NoSequenceOfOperationsStops :
    ∀ inp ∈ [.rx 0x2F#8, encode .frmStat, encode (.extField [0x31#8] []), .reset], Input.wellFormed inp = true := by
  decide

theorem witness_DecoderIsTheOpcodeTable_and_HostCodesDecodeToTheirOperations :
    ∃ r : HostRecord, operandFits r.tag = true ∧ operandFits r.unit = true ∧ r.hop = 0x8#4 ∧ r.tag ≠ [] :=
  ⟨{ hopRecord 0x8#4 with tag := [0x31#8] }, by decide⟩

theorem witness_DecodeOfEncodeIsTheOperation :
    ∀ im ∈ [(Instr.rxSof, DecodeMode.mk .rdck false true), (.rxSkip 0x21#8, ⟨.idle, true, false⟩),
        (.rxCkm, ⟨.collect, false, false⟩), (.rxData 0x41#8, ⟨.collect, true, false⟩),
        (.rxDrop 0x41#8, ⟨.collect, false, false⟩), (.rxCkb 0x21#8, ⟨.rdck, true, false⟩),
        (.rxCke 0x21#8, ⟨.rdck, true, true⟩), (.crcUpd 0xFF#8, ⟨.rdck, true, true⟩),
        (.extField [0x31#8] [0x2A#8], ⟨.idle, true, false⟩), (.hReserved 0xB#4, ⟨.idle, true, false⟩)],
      im.1.wellFormed = true ∧ im.1.appliesIn im.2 = true := by decide

theorem witness_DecoderGivesOnlyWellFormedOperations :
    ∃ (m : DecodeMode) (inp : Input) (i : Instr), decode m inp = .ok i :=
  ⟨⟨.collect, false, false⟩, .rx 0x41#8, .rxDrop 0x41#8, rfl⟩

theorem witness_StepRunsTheOldestOperation :
    (∃ (s : State) (inp : Input) (rest : List Input) (i : Instr), s.inputs = inp :: rest ∧
      decode ⟨s.fst, decide (s.len < s.cfg.maxlen), decide (s.ckcnt = 3)⟩ inp = .ok i) ∧
    (∃ (s : State) (inp : Input) (rest : List Input) (e : DecodeError), s.inputs = inp :: rest ∧
      decode ⟨s.fst, decide (s.len < s.cfg.maxlen), decide (s.ckcnt = 3)⟩ inp = .error e) ∧
    (∃ s : State, s.inputs = []) :=
  ⟨⟨State.coming s28D [.rx 0x43#8], .rx 0x43#8, [], .rxCke 0x43#8, rfl, rfl⟩,
    ⟨State.coming sA [.host { hopRecord 0x9#4 with tag := longOperand }], _, [], _, rfl, test_decode_rejects_long_tag⟩,
    ⟨sA, rfl⟩⟩

theorem witness_StepAnswersAndKeepsTheInvariant :
    ∃ s : State, Inv s ∧ InputsFit s ∧ s.inputs = [.rx 0x43#8, encode (.extField [0x31#8] []), .reset] :=
  ⟨State.coming s28D [.rx 0x43#8, encode (.extField [0x31#8] []), .reset], inv_coming inv_s28D _,
    by unfold InputsFit; decide, rfl⟩

end Sys2Proof.Tests
end

namespace Sys2Proof.Machine

/-! ## The decoder: it rejects no operation that agents can present, and what it gives is well-formed and applies

30_encoding.md R73, R80 to R82. -/

/-- A stream byte decodes to a row whose byte and state conditions hold (R73). -/
theorem decodeStream_wellFormed_appliesIn (m : DecodeMode) (b : Byte) :
    (decodeStream m b).wellFormed = true ∧ (decodeStream m b).appliesIn m = true := by
  obtain ⟨fst, room, last⟩ := m
  unfold decodeStream
  by_cases hs : b = sofByte
  · simp [hs, Instr.wellFormed, Instr.appliesIn]
  · cases fst with
    | idle => simp [hs, Instr.wellFormed, Instr.appliesIn, notSof]
    | collect =>
      by_cases hc : b = ckmByte
      · simp [hc, sofByte, ckmByte, Instr.wellFormed, Instr.appliesIn]
      · cases room <;> simp [hs, hc, Instr.wellFormed, Instr.appliesIn, ordinaryByte]
    | rdck => cases last <;> simp [hs, Instr.wellFormed, Instr.appliesIn, notSof]

/-- A record decodes only to a well-formed operation, which applies in every state (R81, R82). -/
theorem decodeHost_wellFormed_appliesIn (m : DecodeMode) (r : HostRecord) (i : Instr) (h : decodeHost r = .ok i) :
    i.wellFormed = true ∧ i.appliesIn m = true := by
  unfold decodeHost at h
  split at h
  case h_8 =>
    obtain ⟨htag, hunit, rfl⟩ := (checkTagUnit_ok _ _ _ _).mp h
    simp [Instr.wellFormed, Instr.appliesIn, htag, hunit]
  case h_9 | h_10 =>
    obtain ⟨htag, rfl⟩ := (checkTag_ok _ _ _).mp h
    simp [Instr.wellFormed, Instr.appliesIn, htag]
  case h_11 =>
    cases h
    have hreserved : reservedHop r.hop = true := by
      simp only [reservedHop, Bool.or_eq_true, beq_iff_eq, decide_eq_true_eq]
      simp only [imp_false] at *
      omega
    exact ⟨hreserved, rfl⟩
  all_goals cases h; exact ⟨rfl, rfl⟩

/-- Whatever the decoder gives is well-formed and applies in the state it was decoded in. -/
theorem decode_wellFormed_appliesIn (m : DecodeMode) (inp : Input) (i : Instr) (h : decode m inp = .ok i) :
    i.wellFormed = true ∧ i.appliesIn m = true := by
  cases inp with
  | rx b => cases h; exact decodeStream_wellFormed_appliesIn m b
  | host r => exact decodeHost_wellFormed_appliesIn m r i h
  | reset => cases h; exact ⟨rfl, rfl⟩

/-- A record whose operands have legal lengths is not rejected (R80). -/
theorem decodeHost_ok_of_operandFits (r : HostRecord) (htag : operandFits r.tag = true)
    (hunit : operandFits r.unit = true) : ∃ i, decodeHost r = .ok i := by
  unfold decodeHost
  split
  case h_8 => exact ⟨_, (checkTagUnit_ok _ _ _ _).mpr ⟨htag, hunit, rfl⟩⟩
  case h_9 | h_10 => exact ⟨_, (checkTag_ok _ _ _).mpr ⟨htag, rfl⟩⟩
  all_goals exact ⟨_, rfl⟩

/-- The decoder rejects no operation that an agent can present (R80). -/
theorem decode_ok_of_wellFormed (m : DecodeMode) (inp : Input) (h : inp.wellFormed = true) :
    ∃ i, decode m inp = .ok i := by
  cases inp with
  | rx b => exact ⟨_, rfl⟩
  | host r =>
    obtain ⟨htag, hunit⟩ := Bool.and_eq_true_iff.mp h
    exact decodeHost_ok_of_operandFits r htag hunit
  | reset => exact ⟨_, rfl⟩

/-! ## The model's own fields: no operation writes `cfg` or `inputs` (log 1, log 2) -/

theorem exec_cfg_inputs (i : Instr) (s t : State) (h : exec i s = .next t) :
    t.cfg = s.cfg ∧ t.inputs = s.inputs := by
  rcases exec_cases i s t h with ⟨_, rfl⟩ | ⟨_, rfl⟩ | ⟨b, _, _, rfl⟩ | ⟨b, _, rfl⟩ | ⟨b, c, _, _, rfl⟩ | ⟨_, rfl⟩ |
    ⟨b, _, rfl⟩ | ⟨_, rfl⟩ | ⟨_, _, _, _, _, _, _, _, x, rfl⟩
  case inr.inl => by_cases hroom : s.len < s.cfg.maxlen <;> simp [hroom]
  all_goals exact ⟨rfl, rfl⟩

/-- A step takes the oldest operation away, if there is one (20_memory.md R59). -/
theorem step_inputs (s t : State) (h : step s = .next t) : t.inputs = s.inputs.tail := by
  rcases step_next s t h with ⟨hnil, rfl⟩ | ⟨inp, rest, i, hcons, _, hexec⟩
  · simp [hnil]
  · simp [hcons, (exec_cfg_inputs i _ t hexec).2]

/-- So the operations still to come stay ones that agents can present. -/
theorem InputsFit.step {s t : State} (hfit : InputsFit s) (h : step s = .next t) : InputsFit t := by
  intro inp hinp
  rw [step_inputs s t h] at hinp
  exact hfit inp (List.mem_of_mem_tail hinp)

/-! ## The payload after a capture (10_state.md R38) -/

/-- The frame-start byte alone (41_framer.md R121). -/
theorem payload_restart (s : State) : (restart s).payload = some [sofByte] := rfl

/-- One more captured byte is one more byte at the end of the payload (R123, R125). -/
theorem payload_append (b : Byte) (s : State) (p : ByteString) (h : s.payload = some p) :
    (append b s).payload = some (p ++ [b]) := by
  have hold : Memory.slice (Memory.write s.buf s.len b) 0 s.len = some p := by
    rw [Memory.slice_congr s.buf _ s.len 0 (fun a _ ha => Memory.read_write_other _ _ _ _ (by omega))]
    exact h
  exact Memory.slice_snoc _ b s.len 0 p hold (by simp)

/-! ## The invariant, operation by operation (10_state.md R23, R25 to R28, R31) -/

/-- The invariant does not speak of `gcrc`, the response or the operations still to come. -/
theorem Inv.of_sameFramer {s t : State} (h : Inv s) (hst : SameFramer s t) : Inv t := by
  obtain ⟨hcfg, hblock⟩ := hst
  cases s
  cases t
  simp only [State.block, Block.mk.injEq] at hcfg hblock
  obtain ⟨_, rfl, rfl, rfl, rfl, rfl, rfl, rfl, rfl⟩ := hblock
  subst hcfg
  exact ⟨h.buf_wf, h.ckf_wf, h.len_le, h.buf_holds, h.ckf_positions, h.ckf_holds, h.valid_complete, h.complete_idle,
    h.busy, h.start_byte, h.ckcnt_zero, h.fcrc_payload, h.complete_checked, h.start_only_first, h.marker_only_last,
    h.no_marker_yet⟩

theorem Inv.respond {s : State} (h : Inv s) (x : Response) : Inv (respond x s) := h.of_sameFramer ⟨rfl, rfl⟩

/-- At reset (R36). -/
theorem inv_resetOf (cfg : Config) : Inv (State.resetOf cfg) where
  buf_wf := rfl
  ckf_wf := rfl
  len_le := Nat.zero_le _
  buf_holds i := by simp
  ckf_positions _ _ := rfl
  ckf_holds i hi := absurd hi (Nat.not_lt_zero i)
  valid_complete h := by simp at h
  complete_idle _ := rfl
  busy h := absurd rfl h
  start_byte h := by simp at h
  ckcnt_zero _ := rfl
  fcrc_payload := ⟨[], rfl, rfl⟩
  complete_checked h := by simp at h
  start_only_first _ _ := by simp
  marker_only_last _ _ := by simp
  no_marker_yet h := by simp at h

/-- `RX.SOF` starts a capture that holds `/` alone (R121). -/
theorem Inv.after_rxSof {s : State} (h : Inv s) :
    Inv { restart s with ckcnt := 0, complete := false, valid := false, fst := .collect } where
  buf_wf := rfl
  ckf_wf := h.ckf_wf
  len_le := s.cfg.maxlen_pos
  buf_holds i := by by_cases hi : i = 0 <;> simp [hi]
  ckf_positions := h.ckf_positions
  ckf_holds i hi := absurd hi (Nat.not_lt_zero i)
  valid_complete hv := by simp at hv
  complete_idle hc := by simp at hc
  busy _ := ⟨rfl, rfl, Nat.le_refl 1⟩
  start_byte _ := rfl
  ckcnt_zero _ := rfl
  fcrc_payload := ⟨_, payload_restart s, rfl⟩
  complete_checked hc := by simp at hc
  start_only_first i hi := by simp [Nat.ne_zero_of_lt hi]
  marker_only_last i hi := by simp at hi
  no_marker_yet _ i := by by_cases hi : i = 0 <;> simp [hi, sofByte]

/-- A byte other than `/` captured in `COLLECT` (`RX.DATA` R123, `RX.CKM` R125): the framer stays in `COLLECT` only if the
byte is not the marker. -/
theorem Inv.after_capture {s : State} (h : Inv s) (b : Byte) (f : Fst) (hcollect : s.fst = .collect)
    (hroom : s.len < s.cfg.maxlen) (hsof : b ≠ sofByte) (hmarker : f = .collect → b ≠ ckmByte) :
    Inv { append b s with ckcnt := 0, fst := f } := by
  obtain ⟨hcomplete, hvalid, hlen⟩ := h.busy (by simp [hcollect])
  obtain ⟨p, hp, hcrc⟩ := h.fcrc_payload
  have hread : ∀ i, Memory.read (Memory.write s.buf s.len b) i = if i = s.len then some b else Memory.read s.buf i :=
    Memory.read_write s.buf s.len b
  exact {
    buf_wf := Memory.wf_write _ _ _ h.buf_wf
    ckf_wf := h.ckf_wf
    len_le := hroom
    buf_holds := fun i => by
      simp only [append_buf, append_len, hread]
      split
      · simp [*]
      · have hlt : i < s.len ↔ i < s.len + 1 := by omega
        simpa [h.buf_holds] using hlt
    ckf_positions := h.ckf_positions
    ckf_holds := fun i hi => absurd hi (Nat.not_lt_zero i)
    valid_complete := fun hv => by simp [hvalid] at hv
    complete_idle := fun hc => by simp [hcomplete] at hc
    busy := fun _ => ⟨hcomplete, hvalid, Nat.succ_pos _⟩
    start_byte := fun _ => by
      simp only [append_buf]
      rw [Memory.read_write_other _ _ _ _ (by omega)]
      exact h.start_byte hlen
    ckcnt_zero := fun _ => rfl
    fcrc_payload := ⟨p ++ [b], payload_append b s p hp, by simp only [append_fcrc, crc16_snoc, hcrc]⟩
    complete_checked := fun hc => by simp [hcomplete] at hc
    start_only_first := fun i hi => by
      simp only [append_buf, hread]
      split
      · simpa [sofByte] using hsof
      · exact h.start_only_first i hi
    marker_only_last := fun i hi => by
      simp only [append_len] at hi
      simp only [append_buf]
      rw [Memory.read_write_other _ _ _ _ (by omega)]
      exact h.no_marker_yet hcollect i
    no_marker_yet := fun hfc i => by
      simp only [append_buf, hread]
      split
      · simpa [ckmByte] using hmarker hfc
      · exact h.no_marker_yet hcollect i }

/-- `RX.DATA` (R123). -/
theorem Inv.after_rxData {s : State} (h : Inv s) (b : Byte) (hcollect : s.fst = .collect)
    (hroom : s.len < s.cfg.maxlen) (hb : ordinaryByte b = true) : Inv (append b s) := by
  obtain ⟨hsof, hckm⟩ : b ≠ sofByte ∧ b ≠ ckmByte := by simpa [ordinaryByte] using hb
  have hsame : SameFramer { append b s with ckcnt := 0, fst := .collect } (append b s) := by
    rw [← h.ckcnt_zero (by simp [hcollect]), ← hcollect]
    exact ⟨rfl, rfl⟩
  exact (h.after_capture b .collect hcollect hroom hsof (fun _ => hckm)).of_sameFramer hsame

/-- The marker that does not fit is not stored; checksum reading begins all the same (R125). -/
theorem Inv.after_marker_dropped {s : State} (h : Inv s) (hcollect : s.fst = .collect) :
    Inv { s with ckcnt := 0, fst := .rdck } := by
  obtain ⟨hcomplete, hvalid, hlen⟩ := h.busy (by simp [hcollect])
  exact { h with
    ckf_holds := fun i hi => absurd hi (Nat.not_lt_zero i)
    complete_idle := fun hc => by simp [hcomplete] at hc
    busy := fun _ => ⟨hcomplete, hvalid, hlen⟩
    ckcnt_zero := fun _ => rfl
    no_marker_yet := fun hf => by simp at hf }

/-- `RX.CKM` (R125). -/
theorem Inv.after_rxCkm {s : State} (h : Inv s) (hcollect : s.fst = .collect) :
    Inv { (if s.len < s.cfg.maxlen then append ckmByte s else s) with ckcnt := 0, fst := .rdck } := by
  split
  · next hroom => exact h.after_capture ckmByte .rdck hcollect hroom (by decide) (by decide)
  · exact h.after_marker_dropped hcollect

/-- A checksum byte written at one of the four positions keeps the checksum field in form (R27). -/
theorem Inv.ckf_write {s : State} (h : Inv s) (k : Fin 4) (b : Byte) :
    Memory.wf (Memory.write s.ckf k.val b) = true ∧
      ∀ i, 4 ≤ i → Memory.read (Memory.write s.ckf k.val b) i = none := by
  refine ⟨Memory.wf_write _ _ _ h.ckf_wf, fun i hi => ?_⟩
  rw [Memory.read_write_other _ _ _ _ (by omega)]
  exact h.ckf_positions i hi

/-- `RX.CKB` (R126). -/
theorem Inv.after_rxCkb {s : State} (h : Inv s) (b : Byte) (hrdck : s.fst = .rdck) (hlast : s.ckcnt ≠ 3) :
    Inv { s with ckf := Memory.write s.ckf s.ckcnt.val b, ckcnt := s.ckcnt + 1 } := by
  obtain ⟨hcomplete, hvalid, hlen⟩ := h.busy (by simp [hrdck])
  obtain ⟨hwf, hpositions⟩ := h.ckf_write s.ckcnt b
  have hnext : (s.ckcnt + 1).val = s.ckcnt.val + 1 := by omega
  exact { h with
    ckf_wf := hwf
    ckf_positions := hpositions
    ckf_holds := fun i hi => by
      simp only [hnext] at hi
      simp only [Memory.read_write]
      split
      · rfl
      · exact h.ckf_holds i (by omega)
    ckcnt_zero := fun hf => absurd hrdck hf
    complete_checked := fun hc => by simp [hcomplete] at hc }

/-- `RX.CKE` (R127, R128): the frame is complete and `valid` is the comparison with the CRC of the payload. -/
theorem Inv.after_rxCke {s : State} (h : Inv s) (b : Byte) (c : Quad)
    (hquad : Memory.quad (Memory.write s.ckf 3 b) = some c) :
    Inv { s with ckf := Memory.write s.ckf 3 b, complete := true, valid := validFlag s.fcrc c, ckcnt := 0,
                 fst := .idle } := by
  obtain ⟨p, hp, hcrc⟩ := h.fcrc_payload
  obtain ⟨hwf, hpositions⟩ := h.ckf_write 3 b
  exact { h with
    ckf_wf := hwf
    ckf_positions := hpositions
    ckf_holds := fun i hi => absurd hi (Nat.not_lt_zero i)
    valid_complete := fun _ => rfl
    complete_idle := fun _ => rfl
    busy := fun hf => absurd rfl hf
    ckcnt_zero := fun _ => rfl
    complete_checked := fun _ => ⟨p, c, hp, hquad, by simp only [validFlag, hcrc]⟩
    no_marker_yet := fun hf => by simp at hf }

/-- `RESET` (R230). -/
theorem inv_after_reset (s : State) :
    Inv { s with gcrc := 0x0000#16, fcrc := 0x0000#16, fst := .idle, len := 0, ckcnt := 0, complete := false,
                 valid := false, buf := [], ckf := [] } :=
  (inv_resetOf s.cfg).of_sameFramer ⟨rfl, rfl⟩

/-- Every well-formed operation that applies keeps the invariant (R31). -/
theorem Inv.exec {s t : State} (h : Inv s) (i : Instr) (hwf : i.wellFormed = true)
    (happ : i.appliesIn (decodeMode s) = true) (hexec : exec i s = .next t) : Inv t := by
  rcases exec_cases i s t hexec with ⟨rfl, rfl⟩ | ⟨rfl, rfl⟩ | ⟨b, rfl, hroom, rfl⟩ | ⟨b, rfl, rfl⟩ |
    ⟨b, c, rfl, hquad, rfl⟩ | ⟨rfl, rfl⟩ | ⟨b, rfl, rfl⟩ | ⟨rfl, rfl⟩ | ⟨_, _, _, _, _, _, _, _, x, rfl⟩
  · exact h.after_rxSof.respond _
  · exact (h.after_rxCkm (by simpa [Instr.appliesIn, decodeMode] using happ)).respond _
  · obtain ⟨hcollect, _⟩ : s.fst = .collect ∧ s.len < s.cfg.maxlen := by
      simpa [Instr.appliesIn, decodeMode] using happ
    exact (h.after_rxData b hcollect hroom hwf).respond _
  · obtain ⟨hrdck, hlast⟩ : s.fst = .rdck ∧ s.ckcnt ≠ 3 := by simpa [Instr.appliesIn, decodeMode] using happ
    exact (h.after_rxCkb b hrdck hlast).respond _
  · exact (h.after_rxCke b c hquad).respond _
  · exact h.of_sameFramer ⟨rfl, rfl⟩
  · exact h.of_sameFramer ⟨rfl, rfl⟩
  · exact (inv_after_reset s).respond _
  · exact h.respond x

/-! ## Progress: an operation that applies answers from every state that meets the invariant -/

/-- Entries below `len` hold a value (10_state.md R25). -/
theorem Inv.read_buf {s : State} (h : Inv s) (i : Nat) (hi : i < s.len) : ∃ v, Memory.read s.buf i = some v :=
  Option.isSome_iff_exists.mp (by simp [h.buf_holds, hi])

/-- After three checksum bytes the fourth completes the checksum field (R27, R28). -/
theorem Inv.quad_write_last {s : State} (h : Inv s) (hlast : s.ckcnt = 3) (b : Byte) :
    ∃ c, Memory.quad (Memory.write s.ckf 3 b) = some c := by
  have hold : ∀ i, i < 3 → ∃ v, Memory.read (Memory.write s.ckf 3 b) i = some v := fun i hi => by
    rw [Memory.read_write_other _ _ _ _ (by omega)]
    exact Option.isSome_iff_exists.mp (h.ckf_holds i (by simpa [hlast] using hi))
  obtain ⟨c0, h0⟩ := hold 0 (by decide)
  obtain ⟨c1, h1⟩ := hold 1 (by decide)
  obtain ⟨c2, h2⟩ := hold 2 (by decide)
  exact ⟨⟨c0, c1, c2, b⟩, (Memory.quad_eq_some _ _).mpr ⟨h0, h1, h2, Memory.read_write_same _ _ _⟩⟩

/-- An extraction answers in every state that meets the invariant: a payload is there. -/
theorem Inv.extract_answers {s : State} (h : Inv s) (f : ByteString → Response) :
    ∃ t, extract f s = .next t := by
  obtain ⟨p, hp, _⟩ := h.fcrc_payload
  cases hv : s.valid with
  | false => exact ⟨_, (extract_next f s _).mpr (.inl ⟨hv, rfl⟩)⟩
  | true => exact ⟨_, (extract_next f s _).mpr (.inr ⟨hv, p, hp, rfl⟩)⟩

theorem Inv.frmRdb_answers {s : State} (h : Inv s) (idx : BitVec 16) : ∃ t, execFrmRdb idx s = .next t := by
  rcases Nat.lt_or_ge idx.toNat s.len with hlt | hge
  · obtain ⟨v, hv⟩ := h.read_buf _ hlt
    exact ⟨_, (execFrmRdb_next idx s _).mpr (.inr ⟨hlt, v, hv, rfl⟩)⟩
  · exact ⟨_, (execFrmRdb_next idx s _).mpr (.inl ⟨hge, rfl⟩)⟩

theorem Inv.frmRdck_answers {s : State} (h : Inv s) : ∃ t, execFrmRdck s = .next t := by
  cases hc : s.complete with
  | false => exact ⟨_, (execFrmRdck_next s _).mpr (.inl ⟨hc, rfl⟩)⟩
  | true =>
    obtain ⟨_, c, _, hquad, _⟩ := h.complete_checked hc
    exact ⟨_, (execFrmRdck_next s _).mpr (.inr ⟨hc, c, hquad, rfl⟩)⟩

/-- No operation stops in a state that meets the invariant and in which its row applies. -/
theorem Inv.exec_answers {s : State} (h : Inv s) (i : Instr) (happ : i.appliesIn (decodeMode s) = true) :
    ∃ t, Machine.exec i s = .next t := by
  cases i with
  | rxData b =>
    obtain ⟨_, hroom⟩ : s.fst = .collect ∧ s.len < s.cfg.maxlen := by
      simpa [Instr.appliesIn, decodeMode] using happ
    exact ⟨_, (execRxData_next b s _).mpr ⟨hroom, rfl⟩⟩
  | rxCke b =>
    obtain ⟨_, hlast⟩ : s.fst = .rdck ∧ s.ckcnt = 3 := by simpa [Instr.appliesIn, decodeMode] using happ
    obtain ⟨c, hquad⟩ := h.quad_write_last hlast b
    exact ⟨_, (execRxCke_next b s _).mpr ⟨c, hquad, rfl⟩⟩
  | frmRdb idx => exact h.frmRdb_answers idx
  | frmRdck => exact h.frmRdck_answers
  | extField tag unit => exact h.extract_answers _
  | extDate tag => exact h.extract_answers _
  | extTime tag => exact h.extract_answers _
  | _ => exact ⟨_, rfl⟩

/-! ## One step -/

/-- Every step keeps the invariant (R31): what it runs was decoded, hence is well-formed and applies. -/
theorem Inv.step {s t : State} (h : Inv s) (hstep : step s = .next t) : Inv t := by
  rcases step_next s t hstep with ⟨_, rfl⟩ | ⟨inp, rest, i, _, hdecode, hexec⟩
  · exact h
  · obtain ⟨hwf, happ⟩ := decode_wellFormed_appliesIn _ _ _ hdecode
    exact (h.of_sameFramer (t := { s with inputs := rest }) ⟨rfl, rfl⟩).exec i hwf happ hexec

/-- Every step answers a next state: the decoder does not reject the oldest operation, and the operation does not stop. -/
theorem Inv.step_answers {s : State} (h : Inv s) (hfit : InputsFit s) : ∃ t, Machine.step s = .next t := by
  cases hi : s.inputs with
  | nil => exact ⟨s, step_nil s hi⟩
  | cons inp rest =>
    obtain ⟨i, hdecode⟩ := decode_ok_of_wellFormed (decodeMode s) inp (hfit inp (by simp [hi]))
    obtain ⟨_, happ⟩ := decode_wellFormed_appliesIn _ _ _ hdecode
    rw [step_cons s inp rest hi, hdecode]
    exact (h.of_sameFramer (t := { s with inputs := rest }) ⟨rfl, rfl⟩).exec_answers i happ

/-- Settles O54: the decoder gives an operation that applies, the invariant lets it answer, and it keeps the invariant. -/
theorem stepAnswersAndKeepsTheInvariant : Obligations.StepAnswersAndKeepsTheInvariant := by
  intro s hinv hfit
  obtain ⟨t, hstep⟩ := hinv.step_answers hfit
  exact ⟨t, hstep, hinv.step hstep, hfit.step hstep⟩

/-! ## Runs -/

/-- `n` steps from a state that meets the invariant answer one that does, having taken the first `n` operations. -/
theorem Inv.run_answers (n : Nat) {s : State} (h : Inv s) (hfit : InputsFit s) :
    ∃ t, run n s = .next t ∧ Inv t ∧ t.inputs = s.inputs.drop n := by
  induction n generalizing s with
  | zero => exact ⟨s, rfl, h, rfl⟩
  | succ n ih =>
    obtain ⟨u, hstep⟩ := h.step_answers hfit
    obtain ⟨t, hrun, hinv, hinputs⟩ := ih (h.step hstep) (hfit.step hstep)
    refine ⟨t, by rw [run_succ_of_next n s u hstep, hrun], hinv, ?_⟩
    rw [hinputs, step_inputs s u hstep, List.drop_tail]

/-- Settles O46: the invariant holds at reset, so every step of the run answers (O54's lemmas). -/
theorem noSequenceOfOperationsStops : Obligations.NoSequenceOfOperationsStops := by
  intro cfg inputs n hfit
  have hinv : Inv { State.resetOf cfg with inputs := inputs } := (inv_resetOf cfg).of_sameFramer ⟨rfl, rfl⟩
  exact hinv.run_answers n hfit

/-! ## The substring search (00_scope.md R9) -/

/-- An occurrence lies within `h`. -/
theorem OccursAt.le_length {h n : ByteString} {i : Nat} (hocc : OccursAt h n i) : i ≤ h.length :=
  Nat.le_of_add_right_le hocc.1

/-- `find` answers `i` exactly when `i` is the least index of an occurrence. -/
theorem find_eq_some (h n : ByteString) (start i : Nat) : find h n start = some i ↔ FirstAt h n start i := by
  unfold find FirstAt
  by_cases hs : start ≤ h.length
  · rw [if_pos hs, findFrom_eq_some]
    simp only [List.drop_drop, List.length_drop]
    constructor
    · rintro ⟨j, rfl, hj, hpre, hmin⟩
      refine ⟨by omega, (occursAt_iff_prefix h n _ (by omega)).mpr hpre, fun k hk hlt hocc => ?_⟩
      refine hmin (k - start) (by omega) ?_
      rw [Nat.add_sub_cancel' hk]
      exact (occursAt_iff_prefix h n k hocc.le_length).mp hocc
    · rintro ⟨hle, hocc, hmin⟩
      have hi := hocc.le_length
      refine ⟨i - start, by omega, by omega, ?_, fun l hl hpre => ?_⟩
      · rw [Nat.add_sub_cancel' hle]
        exact (occursAt_iff_prefix h n i hi).mp hocc
      · exact hmin (start + l) (by omega) (by omega) ((occursAt_iff_prefix h n _ (by omega)).mpr hpre)
  · rw [if_neg hs]
    constructor
    · rintro ⟨⟩
    · rintro ⟨hle, hocc, _⟩
      exact absurd (Nat.le_trans hle hocc.le_length) hs

/-- `find` answers none exactly when there is no occurrence. -/
theorem find_eq_none (h n : ByteString) (start : Nat) : find h n start = none ↔ Absent h n start := by
  unfold find Absent
  by_cases hs : start ≤ h.length
  · rw [if_pos hs, findFrom_eq_none]
    simp only [List.drop_drop, List.length_drop]
    constructor
    · intro hnone j hj hocc
      refine hnone (j - start) (by have := hocc.le_length; omega) ?_
      rw [Nat.add_sub_cancel' hj]
      exact (occursAt_iff_prefix h n j hocc.le_length).mp hocc
    · intro habsent j hj hpre
      exact habsent (start + j) (by omega) ((occursAt_iff_prefix h n _ (by omega)).mpr hpre)
  · rw [if_neg hs]
    simp only [true_iff]
    exact fun j hj hocc => hs (Nat.le_trans hj hocc.le_length)

/-- The empty string occurs at every index up to the length. -/
theorem find_empty (h : ByteString) (start : Nat) :
    find h [] start = if start ≤ h.length then some start else none := by
  unfold find
  cases h.drop start <;> simp [findFrom]

/-- Settles O28: the search of the suffix from `start` on, with its offsets counted from 0. -/
theorem findGivesTheFirstOccurrence : Obligations.FindGivesTheFirstOccurrence := by
  intro h n start
  refine ⟨find_eq_some h n start, find_eq_none h n start, ?_⟩
  rintro rfl
  exact find_empty h start

/-- Settles O52: the state the step finds is read through `decodeMode`. -/
theorem stepRunsTheOldestOperation : Obligations.StepRunsTheOldestOperation := by
  refine ⟨fun s inp rest i hi hdecode => ?_, fun s inp rest e hi hdecode => ?_, step_nil⟩
  · have hok : decode (decodeMode s) inp = .ok i := hdecode
    rw [step_cons s inp rest hi, hok]
  · have herror : decode (decodeMode s) inp = .error e := hdecode
    rw [step_cons s inp rest hi, herror]

end Sys2Proof.Machine

namespace Sys2Proof.Machine

/-! ## The invariant over steps, and at reset (10_state.md R23, R31, R36) -/

/-- Settles O45: what a step runs was decoded, hence is well-formed and applies, and keeps the invariant. -/
theorem stepKeepsTheInvariant : Obligations.StepKeepsTheInvariant :=
  fun _ _ hinv hstep => hinv.step hstep

/-- Settles O44: the reset state of every configuration, the implementation's among them. -/
theorem invariantHoldsAtReset : Obligations.InvariantHoldsAtReset :=
  ⟨inv_resetOf Config.implementation, inv_resetOf⟩

/-- Settles O1: the values R36 lists are the fields of `State.resetOf`. -/
theorem resetStateHoldsTheSpecifiedValues : Obligations.ResetStateHoldsTheSpecifiedValues :=
  ⟨rfl, rfl, rfl, rfl, rfl, rfl, rfl, Memory.read_nil, Memory.read_nil⟩

/-- Settles O43, from the cases of `exec_cases`. -/
theorem noOperationWritesParameterOrInputs : Obligations.NoOperationWritesParameterOrInputs :=
  exec_cfg_inputs

/-! ## What a decoded operation came from (30_encoding.md R73, R81, R82) -/

/-- A stream byte decodes to a form that is encoded by that byte. -/
theorem encode_decodeStream (m : DecodeMode) (b : Byte) : encode (decodeStream m b) = .rx b := by
  unfold decodeStream
  by_cases hsof : b = sofByte
  · simp [hsof, encode]
  · cases m.fst with
    | idle => simp [hsof, encode]
    | collect =>
      by_cases hckm : b = ckmByte
      · subst hckm; simp [hsof, encode]
      · cases m.room <;> simp [hsof, hckm, encode]
    | rdck => cases m.last <;> simp [hsof, encode]

/-- A record decodes only to a host operation. -/
theorem isHost_encode_of_decodeHost (r : HostRecord) (i : Instr) (h : decodeHost r = .ok i) :
    isHost (encode i) = true := by
  unfold decodeHost at h
  split at h
  case h_8 => obtain ⟨_, _, rfl⟩ := (checkTagUnit_ok _ _ _ _).mp h; rfl
  case h_9 | h_10 => obtain ⟨_, rfl⟩ := (checkTag_ok _ _ _).mp h; rfl
  all_goals cases h; rfl

/-- `RX.SOF` is decoded from the byte `/`, in every mode, and from nothing else (R73). -/
theorem decode_eq_rxSof (m : DecodeMode) (inp : Input) : decode m inp = .ok .rxSof ↔ inp = .rx sofByte := by
  constructor
  · intro h
    cases inp with
    | rx b =>
      have hform : decodeStream m b = .rxSof := by simpa using h
      rw [← encode_decodeStream m b, hform, encode]
    | host r => exact absurd (isHost_encode_of_decodeHost r _ h) (by decide)
    | reset => cases h
  · rintro rfl
    rfl

/-- `RESET` is decoded from the reset event alone (R70). -/
theorem decode_eq_reset (m : DecodeMode) (inp : Input) : decode m inp = .ok .reset ↔ inp = .reset := by
  constructor
  · intro h
    cases inp with
    | rx b =>
      have hform : decodeStream m b = .reset := by simpa using h
      have hencode := encode_decodeStream m b
      rw [hform, encode] at hencode
      cases hencode
    | host r => exact absurd (isHost_encode_of_decodeHost r _ h) (by decide)
    | reset => rfl
  · rintro rfl
    rfl

/-! ## `len` (10_state.md R26) -/

/-- What an operation does to `len`: `RX.SOF` sets it to 1, `RESET` to 0, and no other lowers it. -/
theorem exec_len (i : Instr) (s t : State) (h : exec i s = .next t) :
    (i = .rxSof ∧ t.len = 1) ∨ (i = .reset ∧ t.len = 0) ∨ s.len ≤ t.len := by
  rcases exec_cases i s t h with ⟨rfl, rfl⟩ | ⟨_, rfl⟩ | ⟨b, _, _, rfl⟩ | ⟨b, _, rfl⟩ | ⟨b, c, _, _, rfl⟩ | ⟨_, rfl⟩ |
    ⟨b, _, rfl⟩ | ⟨rfl, rfl⟩ | ⟨_, _, _, _, _, _, _, _, x, rfl⟩
  · exact .inl ⟨rfl, rfl⟩
  · by_cases hroom : s.len < s.cfg.maxlen <;> simp [hroom]
  · simp
  · simp
  · simp
  · simp
  · simp
  · exact .inr (.inl ⟨rfl, rfl⟩)
  · simp

/-- A step that lowers `len` runs `RX.SOF` or `RESET`. -/
theorem step_len_falls (s t : State) (h : step s = .next t) (hfall : t.len < s.len) :
    (t.len = 1 ∧ ∃ rest, s.inputs = .rx sofByte :: rest) ∨ (t.len = 0 ∧ ∃ rest, s.inputs = .reset :: rest) := by
  rcases step_next s t h with ⟨_, rfl⟩ | ⟨inp, rest, i, hcons, hdecode, hexec⟩
  · exact absurd hfall (Nat.lt_irrefl _)
  · rcases exec_len i _ t hexec with ⟨rfl, hlen⟩ | ⟨rfl, hlen⟩ | hle
    · rw [(decode_eq_rxSof _ _).mp hdecode] at hcons
      exact .inl ⟨hlen, rest, hcons⟩
    · rw [(decode_eq_reset _ _).mp hdecode] at hcons
      exact .inr ⟨hlen, rest, hcons⟩
    · exact absurd hfall (Nat.not_lt_of_le hle)

/-- The byte `/` leaves a frame of one byte, whatever came before (R121). -/
theorem step_sof_len (s t : State) (rest : List Input) (hi : s.inputs = .rx sofByte :: rest) (h : step s = .next t) :
    t.len = 1 := by
  rw [step_cons s _ rest hi, (decode_eq_rxSof _ _).mpr rfl] at h
  cases h
  rfl

/-- Settles O19: the bound is part of the invariant, which the step keeps. -/
theorem lenFallsOnlyAtFrameStartOrReset : Obligations.LenFallsOnlyAtFrameStartOrReset :=
  fun s t hinv hstep =>
    ⟨(hinv.step hstep).len_le, step_len_falls s t hstep, fun rest hi => step_sof_len s t rest hi hstep⟩

/-! ## The two flags (R29, R30) -/

/-- `RX.CKE` completes the frame and sets `valid` to the comparison with the characters it leaves in `ckf` (R127). -/
theorem exec_rxCke_flags (b : Byte) (s t : State) (h : exec (.rxCke b) s = .next t) :
    t.complete = true ∧ ∃ c, Memory.quad t.ckf = some c ∧ t.valid = cmpci (hex4 s.fcrc) c := by
  obtain ⟨c, hquad, rfl⟩ := (execRxCke_next b s t).mp h
  exact ⟨rfl, c, hquad, rfl⟩

/-- `RX.SOF` and `RESET` clear both flags (R121, R230). -/
theorem exec_clears_flags (i : Instr) (s t : State) (hi : i = .rxSof ∨ i = .reset) (h : exec i s = .next t) :
    t.complete = false ∧ t.valid = false := by
  rcases hi with rfl | rfl <;> cases h <;> exact ⟨rfl, rfl⟩

/-- Every other operation leaves both flags alone. -/
theorem exec_flags_unchanged (i : Instr) (s t : State) (h : exec i s = .next t) (hcke : ∀ b, i ≠ .rxCke b)
    (hsof : i ≠ .rxSof) (hreset : i ≠ .reset) : t.complete = s.complete ∧ t.valid = s.valid := by
  rcases exec_cases i s t h with ⟨rfl, _⟩ | ⟨_, rfl⟩ | ⟨b, _, _, rfl⟩ | ⟨b, _, rfl⟩ | ⟨b, c, rfl, _⟩ | ⟨_, rfl⟩ |
    ⟨b, _, rfl⟩ | ⟨rfl, _⟩ | ⟨_, _, _, _, _, _, _, _, x, rfl⟩
  · exact absurd rfl hsof
  · by_cases hroom : s.len < s.cfg.maxlen <;> simp [hroom]
  · simp
  · simp
  · exact absurd rfl (hcke b)
  · simp
  · simp
  · exact absurd rfl hreset
  · simp

/-- Settles O20: the writers of the flags by their own lemmas, every other operation by `exec_flags_unchanged`. -/
theorem onlyTheseOperationsWriteTheFlags : Obligations.OnlyTheseOperationsWriteTheFlags := by
  intro i s t h
  refine ⟨?_, fun hi => exec_clears_flags i s t hi h, exec_flags_unchanged i s t h⟩
  rintro b rfl
  exact exec_rxCke_flags b s t h

/-! ## A complete frame under further stream bytes (R31 item 7) -/

/-- In `IDLE` every byte but `/` is skipped (30_encoding.md R73). -/
theorem decodeStream_idle (m : DecodeMode) (b : Byte) (hidle : m.fst = .idle) (hb : b ≠ sofByte) :
    decodeStream m b = .rxSkip b := by
  simp [decodeStream, hidle, hb]

/-- Settles O25: a complete frame leaves the framer in `IDLE` (R31 item 2), where the byte is skipped. -/
theorem completeFrameSurvivesOtherBytes : Obligations.CompleteFrameSurvivesOtherBytes := by
  intro s b rest hinv hcomplete hi hb
  have hskip : decodeStream (decodeMode s) b = .rxSkip b :=
    decodeStream_idle _ b (hinv.complete_idle hcomplete) hb
  have hstep : step s = exec (.rxSkip b) { s with inputs := rest } := by
    rw [step_cons s _ rest hi, decode_rx, hskip]
  exact ⟨_, hstep, rfl⟩

/-! ## Extractions (10_state.md R37) -/

/-- Each of the three extractions is `extract` of a function of the payload, the same in every state. -/
theorem exec_extraction (i : Instr)
    (hi : (∃ tag unit, i = .extField tag unit) ∨ (∃ tag, i = .extDate tag) ∨ (∃ tag, i = .extTime tag)) :
    ∃ f, ∀ s, exec i s = extract f s := by
  rcases hi with ⟨tag, unit, rfl⟩ | ⟨tag, rfl⟩ | ⟨tag, rfl⟩ <;> exact ⟨_, fun _ => rfl⟩

/-- The payload depends on `len` and the entries below it (R38). -/
theorem payload_congr (s u : State) (hlen : u.len = s.len)
    (hbuf : ∀ a, a < s.len → Memory.read u.buf a = Memory.read s.buf a) : u.payload = s.payload := by
  unfold State.payload
  rw [hlen]
  exact Memory.slice_congr s.buf u.buf s.len 0 fun a _ ha => hbuf a (by omega)

/-- An extraction answers the same in every state that agrees on `valid` and the payload. -/
theorem extract_congr (f : ByteString → Response) (s t u : State) (hvalid : u.valid = s.valid)
    (hpayload : u.payload = s.payload) (h : extract f s = .next t) :
    ∃ v, extract f u = .next v ∧ v.resp = t.resp := by
  rcases (extract_next f s t).mp h with ⟨hv, rfl⟩ | ⟨hv, p, hp, rfl⟩
  · exact ⟨_, (extract_next f u _).mpr (.inl ⟨hvalid.trans hv, rfl⟩), rfl⟩
  · exact ⟨_, (extract_next f u _).mpr (.inr ⟨hvalid.trans hv, p, hpayload.trans hp, rfl⟩), rfl⟩

/-- Settles O34: every extraction is `extract`, which reads `valid` and the payload and changes the response alone. -/
theorem extractorHasNoState : Obligations.ExtractorHasNoState := by
  intro i s t u hi h
  obtain ⟨f, hf⟩ := exec_extraction i hi
  rw [hf] at h
  refine ⟨extract_next_block f s t h, fun hvalid hlen hbuf => ?_⟩
  obtain ⟨v, hv, hresp⟩ := extract_congr f s t u hvalid (payload_congr s u hlen hbuf) h
  exact ⟨v, by rw [hf, hv], hresp, extract_next_block f u v hv⟩

/-! ## The two CRC registers (R21, R22, 00_scope.md R2) -/

/-- Only `CRC.CLR`, `CRC.UPD` and `RESET` write `gcrc`. -/
theorem exec_gcrc_unchanged (i : Instr) (s t : State) (h : exec i s = .next t) (hclr : i ≠ .crcClr)
    (hupd : ∀ b, i ≠ .crcUpd b) (hreset : i ≠ .reset) : t.gcrc = s.gcrc := by
  rcases exec_cases i s t h with ⟨_, rfl⟩ | ⟨_, rfl⟩ | ⟨b, _, _, rfl⟩ | ⟨b, _, rfl⟩ | ⟨b, c, _, _, rfl⟩ | ⟨rfl, _⟩ |
    ⟨b, rfl, _⟩ | ⟨rfl, _⟩ | ⟨_, _, _, _, _, _, _, _, x, rfl⟩
  · simp
  · by_cases hroom : s.len < s.cfg.maxlen <;> simp [hroom]
  · simp
  · simp
  · simp
  · exact absurd rfl hclr
  · exact absurd rfl (hupd b)
  · exact absurd rfl hreset
  · simp

/-- Only the stream forms that store in `buf` and `RESET` write `fcrc`. -/
theorem exec_fcrc_unchanged (i : Instr) (s t : State) (h : exec i s = .next t) (hsof : i ≠ .rxSof) (hckm : i ≠ .rxCkm)
    (hdata : ∀ b, i ≠ .rxData b) (hreset : i ≠ .reset) : t.fcrc = s.fcrc := by
  rcases exec_cases i s t h with ⟨rfl, _⟩ | ⟨rfl, _⟩ | ⟨b, rfl, _⟩ | ⟨b, _, rfl⟩ | ⟨b, c, _, _, rfl⟩ | ⟨_, rfl⟩ |
    ⟨b, _, rfl⟩ | ⟨rfl, _⟩ | ⟨_, _, _, _, _, _, _, _, x, rfl⟩
  · exact absurd rfl hsof
  · exact absurd rfl hckm
  · exact absurd rfl (hdata b)
  · simp
  · simp
  · simp
  · simp
  · exact absurd rfl hreset
  · simp

/-- A stream form neither reads nor writes `gcrc`: from the same state with another `gcrc` it does the same. -/
theorem exec_stream_with_gcrc (i : Instr) (s t : State) (g : CrcWord) (hi : ∃ b, encode i = .rx b)
    (h : exec i s = .next t) : exec i { s with gcrc := g } = .next { t with gcrc := g } := by
  obtain ⟨b, hb⟩ := hi
  cases i with
  | rxSof | rxSkip | rxDrop | rxCkb => cases h; rfl
  | rxCkm =>
    cases h
    by_cases hroom : s.len < s.cfg.maxlen <;> simp [exec, execRxCkm, respond, append, hroom]
  | rxData b =>
    obtain ⟨hroom, rfl⟩ := (execRxData_next b s t).mp h
    exact (execRxData_next b _ _).mpr ⟨hroom, rfl⟩
  | rxCke b =>
    obtain ⟨c, hquad, rfl⟩ := (execRxCke_next b s t).mp h
    exact (execRxCke_next b _ _).mpr ⟨c, hquad, rfl⟩
  | _ => cases hb

/-- Settles O42: one frame for each register, and the stream forms under another `gcrc`. -/
theorem theTwoCrcRegistersAreIndependent : Obligations.TheTwoCrcRegistersAreIndependent :=
  ⟨exec_gcrc_unchanged, exec_fcrc_unchanged, exec_stream_with_gcrc⟩

/-! ## Where an operation stops (R25, R27, 20_memory.md R52, R54; log 4, log 5, log 7) -/

/-- There is no payload exactly when an entry below `len` holds no value. -/
theorem payload_eq_none (s : State) : s.payload = none ↔ ∃ a, a < s.len ∧ Memory.read s.buf a = none := by
  have hsome : s.payload.isSome = true ↔ ∀ a, 0 ≤ a → a < 0 + s.len → (Memory.read s.buf a).isSome = true :=
    Memory.slice_isSome s.buf s.len 0
  rw [← Option.not_isSome_iff_eq_none, hsome]
  simp

/-- `RX.DATA` (41_framer.md R123). -/
theorem execRxData_fault (b : Byte) (s : State) (f : Fault) :
    execRxData b s = .fault f ↔ s.cfg.maxlen ≤ s.len ∧ f = .outsideBuffer s.len := by
  unfold execRxData
  by_cases hroom : s.len < s.cfg.maxlen
  · simp [hroom]
  · simp [hroom, Nat.le_of_not_lt hroom, @eq_comm _ f]

/-- `RX.CKE` (R127): the position it writes itself holds a value. -/
theorem execRxCke_fault (b : Byte) (s : State) (f : Fault) :
    execRxCke b s = .fault f ↔ f = .checksumHasNoValue ∧
      (Memory.read s.ckf 0 = none ∨ Memory.read s.ckf 1 = none ∨ Memory.read s.ckf 2 = none) := by
  have hquad : Memory.quad (Memory.write s.ckf 3 b) = none ↔
      Memory.read s.ckf 0 = none ∨ Memory.read s.ckf 1 = none ∨ Memory.read s.ckf 2 = none := by
    simp [Memory.quad_eq_none, Memory.read_write]
  rw [← hquad]
  unfold execRxCke
  cases Memory.quad (Memory.write s.ckf 3 b) <;> simp [@eq_comm _ f]

/-- `FRM.RDB` (43_host_access.md R181). -/
theorem execFrmRdb_fault (idx : BitVec 16) (s : State) (f : Fault) :
    execFrmRdb idx s = .fault f ↔
      f = .bufferHasNoValue ∧ idx.toNat < s.len ∧ Memory.read s.buf idx.toNat = none := by
  unfold execFrmRdb raise
  by_cases hlen : s.len ≤ idx.toNat
  · simp [hlen]
  · cases Memory.read s.buf idx.toNat <;> simp [hlen, Nat.lt_of_not_le hlen, @eq_comm _ f]

/-- `FRM.RDCK` (R182). -/
theorem execFrmRdck_fault (s : State) (f : Fault) :
    execFrmRdck s = .fault f ↔ f = .checksumHasNoValue ∧ s.complete = true ∧ Memory.quad s.ckf = none := by
  unfold execFrmRdck raise
  cases s.complete <;> cases Memory.quad s.ckf <;> simp [@eq_comm _ f]

/-- An extraction (42_extractor.md R153, R155, R156). -/
theorem extract_fault (g : ByteString → Response) (s : State) (f : Fault) :
    extract g s = .fault f ↔
      f = .bufferHasNoValue ∧ s.valid = true ∧ ∃ a, a < s.len ∧ Memory.read s.buf a = none := by
  rw [← payload_eq_none]
  unfold extract raise
  cases s.valid <;> cases s.payload <;> simp [@eq_comm _ f]

/-- An extraction is never refused. -/
theorem extract_ne_refused (g : ByteString → Response) (s : State) (x : Refusal) : extract g s ≠ .refused x := by
  unfold extract raise
  cases s.valid <;> cases s.payload <;> simp

/-- Every operation has a meaning: none is refused. -/
theorem exec_ne_refused (i : Instr) (s : State) (x : Refusal) : exec i s ≠ .refused x := by
  cases i with
  | rxData b => simp only [exec, execRxData]; split <;> simp
  | rxCke b => simp only [exec, execRxCke]; split <;> simp
  | frmRdb idx =>
    simp only [exec, execFrmRdb, raise]
    split
    · simp
    · split <;> simp
  | frmRdck =>
    simp only [exec, execFrmRdck, raise]
    split
    · split <;> simp
    · simp
  | extField tag unit => exact extract_ne_refused _ s x
  | extDate tag => exact extract_ne_refused _ s x
  | extTime tag => exact extract_ne_refused _ s x
  | _ => rintro ⟨⟩

/-- Settles O41: the operations that can stop, each by its own lemma; the others answer in every state. -/
theorem operationsStopOnlyWhereNoValueIsHeld : Obligations.OperationsStopOnlyWhereNoValueIsHeld := by
  intro i s
  refine ⟨exec_ne_refused i s, fun f => ?_⟩
  cases i with
  | rxData b => simp [exec, execRxData_fault]
  | rxCke b => simp [exec, execRxCke_fault]
  | frmRdb idx => simp [exec, execFrmRdb_fault]
  | frmRdck => simp [exec, execFrmRdck_fault, Memory.quad_eq_none]
  | extField tag unit => simp [exec, execExtField, extract_fault]
  | extDate tag => simp [exec, execExtDate, extract_fault]
  | extTime tag => simp [exec, execExtTime, extract_fault]
  | _ =>
    constructor
    · rintro ⟨⟩
    · simp

end Sys2Proof.Machine

namespace Sys2Proof.Machine

/-! ## Two states with the same framer (10_state.md R20, 20_memory.md R63) -/

/-- The framer's items, field by field, and the parameter. -/
theorem sameFramer_iff (s t : State) : SameFramer s t ↔
    t.cfg = s.cfg ∧ t.fcrc = s.fcrc ∧ t.fst = s.fst ∧ t.buf = s.buf ∧ t.len = s.len ∧ t.ckf = s.ckf ∧
      t.ckcnt = s.ckcnt ∧ t.complete = s.complete ∧ t.valid = s.valid := by
  simp [SameFramer, State.block]

/-- What a state may differ in from one with the same framer: `gcrc`, the response and the operations still to come. -/
theorem SameFramer.eq_with {s t : State} (h : SameFramer s t) :
    t = { s with gcrc := t.gcrc, resp := t.resp, inputs := t.inputs } := by
  obtain ⟨hcfg, hfcrc, hfst, hbuf, hlen, hckf, hckcnt, hcomplete, hvalid⟩ := (sameFramer_iff s t).mp h
  rw [← hcfg, ← hfcrc, ← hfst, ← hbuf, ← hlen, ← hckf, ← hckcnt, ← hcomplete, ← hvalid]

/-- Two states with the framer of a third have the same framer. -/
theorem SameFramer.of_common {s t u : State} (hst : SameFramer s t) (hsu : SameFramer s u) : SameFramer t u := by
  rw [hst.eq_with, hsu.eq_with]
  exact ⟨rfl, rfl⟩

/-- What decoding depends on is the framer's (30_encoding.md R73). -/
theorem SameFramer.decodeMode_eq {s u : State} (h : SameFramer s u) : decodeMode u = decodeMode s := by
  rw [h.eq_with]
  rfl

/-! ## Who writes `buf`, and where (20_memory.md R51) -/

/-- What an operation does to `buf`: `RX.SOF` and `RESET` clear it, `RX.DATA` and a marker that fits write at `len`, and no
other changes it. -/
theorem exec_buf (i : Instr) (s t : State) (h : exec i s = .next t) :
    (i = .rxSof ∧ t.buf = [(0, sofByte)]) ∨ (i = .reset ∧ t.buf = []) ∨
    (∃ v, (i = .rxData v ∨ i = .rxCkm ∧ v = ckmByte) ∧ s.len < s.cfg.maxlen ∧
      t.buf = Memory.write s.buf s.len v) ∨
    t.buf = s.buf := by
  rcases exec_cases i s t h with ⟨rfl, rfl⟩ | ⟨rfl, rfl⟩ | ⟨b, rfl, hroom, rfl⟩ | ⟨b, _, rfl⟩ | ⟨b, c, _, _, rfl⟩ |
    ⟨_, rfl⟩ | ⟨b, _, rfl⟩ | ⟨rfl, rfl⟩ | ⟨_, _, _, _, _, _, _, _, x, rfl⟩
  · exact .inl ⟨rfl, rfl⟩
  · by_cases hroom : s.len < s.cfg.maxlen
    · exact .inr (.inr (.inl ⟨ckmByte, .inr ⟨rfl, rfl⟩, hroom, by simp [hroom]⟩))
    · exact .inr (.inr (.inr (by simp [hroom])))
  · exact .inr (.inr (.inl ⟨b, .inl rfl, hroom, rfl⟩))
  · simp
  · simp
  · simp
  · simp
  · exact .inr (.inl ⟨rfl, rfl⟩)
  · simp

/-- A byte that `buf` did not hold is the frame-start byte at index 0, or was stored at `len`, below `MAXLEN`. -/
theorem exec_new_byte (i : Instr) (s t : State) (a : Nat) (v : Byte) (h : exec i s = .next t)
    (hread : Memory.read t.buf a = some v) (hnew : Memory.read s.buf a ≠ some v) :
    (i = .rxSof ∧ a = 0 ∧ v = sofByte) ∨ (i = .rxData v ∧ a = s.len ∧ s.len < s.cfg.maxlen) ∨
    (i = .rxCkm ∧ a = s.len ∧ s.len < s.cfg.maxlen ∧ v = ckmByte) := by
  rcases exec_buf i s t h with ⟨hi, hbuf⟩ | ⟨_, hbuf⟩ | ⟨w, hi, hroom, hbuf⟩ | hbuf
  · rw [hbuf, Memory.read_cons] at hread
    by_cases ha : a = 0
    · simp only [ha, if_true, Option.some.injEq] at hread
      exact .inl ⟨hi, ha, hread.symm⟩
    · simp [ha] at hread
  · simp [hbuf] at hread
  · rw [hbuf, Memory.read_write] at hread
    by_cases ha : a = s.len
    · simp only [ha, if_true, Option.some.injEq] at hread
      subst hread
      rcases hi with hi | ⟨hi, hw⟩
      · exact .inr (.inl ⟨hi, ha, hroom⟩)
      · exact .inr (.inr ⟨hi, ha, hroom, hw⟩)
    · rw [if_neg ha] at hread
      exact absurd hread hnew
  · exact absurd (hbuf ▸ hread) hnew

/-- Within a frame no captured byte is rewritten. -/
theorem exec_read_below_len (i : Instr) (s t : State) (a : Nat) (h : exec i s = .next t) (hsof : i ≠ .rxSof)
    (hreset : i ≠ .reset) (ha : a < s.len) : Memory.read t.buf a = Memory.read s.buf a := by
  rcases exec_buf i s t h with ⟨hi, _⟩ | ⟨hi, _⟩ | ⟨w, _, _, hbuf⟩ | hbuf
  · exact absurd hi hsof
  · exact absurd hi hreset
  · rw [hbuf, Memory.read_write_other _ _ _ _ (Nat.ne_of_lt ha)]
  · rw [hbuf]

/-- No host operation writes framer state: it writes `gcrc`, or the response alone. -/
theorem exec_host_sameFramer (i : Instr) (s t : State) (hhost : isHost (encode i) = true) (h : exec i s = .next t) :
    SameFramer s t := by
  rcases exec_cases i s t h with ⟨rfl, _⟩ | ⟨rfl, _⟩ | ⟨b, rfl, _⟩ | ⟨b, rfl, _⟩ | ⟨b, c, rfl, _⟩ | ⟨_, rfl⟩ |
    ⟨b, _, rfl⟩ | ⟨rfl, _⟩ | ⟨_, _, _, _, _, _, _, _, x, rfl⟩
  · cases hhost
  · cases hhost
  · cases hhost
  · cases hhost
  · cases hhost
  · exact ⟨rfl, rfl⟩
  · exact ⟨rfl, rfl⟩
  · cases hhost
  · exact ⟨rfl, rfl⟩

/-- Settles O21: each clause is read off what an operation does to `buf`; the last off `exec_cases`. -/
theorem onlyRxWritesTheBuffer : Obligations.OnlyRxWritesTheBuffer :=
  ⟨exec_new_byte, exec_read_below_len, exec_host_sameFramer⟩

/-! ## A full buffer (20_memory.md R57) -/

/-- In `COLLECT` the marker begins checksum reading, with or without room (30_encoding.md R73). -/
theorem decodeStream_collect_marker (m : DecodeMode) (hcollect : m.fst = .collect) :
    decodeStream m ckmByte = .rxCkm := by
  simp [decodeStream, hcollect, ckmByte, sofByte]

/-- In `COLLECT` without room an ordinary byte is dropped. -/
theorem decodeStream_collect_full (m : DecodeMode) (b : Byte) (hcollect : m.fst = .collect) (hfull : m.room = false)
    (hsof : b ≠ sofByte) (hckm : b ≠ ckmByte) : decodeStream m b = .rxDrop b := by
  simp [decodeStream, hcollect, hfull, hsof, hckm]

/-- A marker that does not fit is not stored (41_framer.md R125). -/
theorem execRxCkm_full (s : State) (hfull : ¬ s.len < s.cfg.maxlen) :
    execRxCkm s = .next (respond .none { s with ckcnt := 0, fst := .rdck }) := by
  simp [execRxCkm, hfull]

/-- Settles O22: the marker runs `RX.CKM` without its store, any other byte runs `RX.DROP`. -/
theorem fullBufferSaturates : Obligations.FullBufferSaturates := by
  intro s b rest hi hcollect hlen hsof
  have hfull : ¬ s.len < s.cfg.maxlen := by omega
  by_cases hckm : b = ckmByte
  · subst hckm
    have hstep : step s = execRxCkm { s with inputs := rest } := by
      rw [step_cons s _ rest hi, decode_rx, decodeStream_collect_marker _ hcollect]
      rfl
    exact ⟨_, hstep.trans (execRxCkm_full _ hfull), rfl, rfl, fun _ => rfl, rfl, rfl, rfl⟩
  · have hstep : step s = execRxDrop b { s with inputs := rest } := by
      rw [step_cons s _ rest hi, decode_rx,
        decodeStream_collect_full _ b hcollect (by simpa [decodeMode] using hfull) hsof hckm]
      rfl
    exact ⟨_, hstep, rfl, rfl, fun _ => rfl, hcollect.trans (if_neg hckm).symm, rfl, rfl⟩

/-! ## Runs without their host operations (20_memory.md R63) -/

/-- Host operations are what records decode to, and nothing else. -/
theorem isHost_encode_of_decode (m : DecodeMode) (inp : Input) (i : Instr) (h : decode m inp = .ok i) :
    isHost (encode i) = isHost inp := by
  cases inp with
  | rx b => cases h; rw [encode_decodeStream]
  | host r => exact isHost_encode_of_decodeHost r i h
  | reset => cases h; rfl

/-- A stream form or `RESET` does the same to every state with the same framer: it reads the framer alone. -/
theorem exec_sameFramer (i : Instr) (s t u : State) (hi : isHost (encode i) = false) (h : exec i s = .next t)
    (hsu : SameFramer s u) : ∃ v, exec i u = .next v ∧ SameFramer t v := by
  rw [hsu.eq_with]
  cases i with
  | rxSof | rxSkip | rxDrop | rxCkb | reset => cases h; exact ⟨_, rfl, rfl, rfl⟩
  | rxCkm =>
    cases h
    refine ⟨_, rfl, ?_⟩
    by_cases hroom : s.len < s.cfg.maxlen <;> simp [sameFramer_iff, hroom]
  | rxData b =>
    obtain ⟨hroom, rfl⟩ := (execRxData_next b s t).mp h
    exact ⟨_, (execRxData_next b _ _).mpr ⟨hroom, rfl⟩, rfl, rfl⟩
  | rxCke b =>
    obtain ⟨c, hquad, rfl⟩ := (execRxCke_next b s t).mp h
    exact ⟨_, (execRxCke_next b _ _).mpr ⟨c, hquad, rfl⟩, rfl, rfl⟩
  | _ => cases hi

/-- A step with an operation still to come runs what it decodes to. -/
theorem step_cons_next (s t : State) (inp : Input) (rest : List Input) (hi : s.inputs = inp :: rest)
    (h : step s = .next t) :
    ∃ i, decode (decodeMode s) inp = .ok i ∧ exec i { s with inputs := rest } = .next t := by
  rcases step_next s t h with ⟨hnil, _⟩ | ⟨inp', rest', i, hcons, hdecode, hexec⟩
  · simp [hnil] at hi
  · obtain ⟨rfl, rfl⟩ : inp = inp' ∧ rest = rest' := by simpa [hi] using hcons
    exact ⟨i, hdecode, hexec⟩

/-- A step that takes a host operation leaves the framer alone. -/
theorem step_host_sameFramer (s t : State) (inp : Input) (rest : List Input) (hi : s.inputs = inp :: rest)
    (hhost : isHost inp = true) (h : step s = .next t) : SameFramer s t := by
  obtain ⟨i, hdecode, hexec⟩ := step_cons_next s t inp rest hi h
  exact exec_host_sameFramer i { s with inputs := rest } t
    ((isHost_encode_of_decode _ inp i hdecode).trans hhost) hexec

/-- A step that takes any other operation does the same to every state with the same framer and that operation next. -/
theorem step_sameFramer (s t u : State) (inp : Input) (rs ru : List Input) (hs : s.inputs = inp :: rs)
    (hu : u.inputs = inp :: ru) (hinp : isHost inp = false) (h : step s = .next t) (hsu : SameFramer s u) :
    ∃ v, step u = .next v ∧ SameFramer t v := by
  obtain ⟨i, hdecode, hexec⟩ := step_cons_next s t inp rs hs h
  rw [step_cons u inp ru hu, hsu.decodeMode_eq, hdecode]
  exact exec_sameFramer i { s with inputs := rs } t { u with inputs := ru }
    ((isHost_encode_of_decode _ inp i hdecode).trans hinp) hexec hsu

/-- Settles O27: by induction on the run; a host operation leaves the framer alone, any other is taken by both runs. -/
theorem hostOperationsCannotDisturbTheFramer : Obligations.HostOperationsCannotDisturbTheFramer := by
  intro n
  induction n with
  | zero =>
    intro s t u rest hrun hsu _
    cases hrun
    exact ⟨u, rfl, hsu⟩
  | succ n ih =>
    intro s t u rest hrun hsu hu
    obtain ⟨s', hstep, hrun⟩ := run_succ_next n s t hrun
    have hnext : s'.inputs = s.inputs.tail := step_inputs s s' hstep
    cases hs : s.inputs with
    | nil =>
      obtain rfl : s = s' := by simpa [step_nil s hs] using hstep
      simpa [hs] using ih s t u rest hrun hsu (by simpa [hs] using hu)
    | cons inp rs =>
      rw [hs, List.tail_cons] at hnext
      rw [hs, List.take_succ_cons] at hu
      rw [List.take_succ_cons]
      cases hinp : isHost inp with
      | true =>
        have hsu' : SameFramer s' u := (step_host_sameFramer s s' inp rs hs hinp hstep).of_common hsu
        simpa [hinp, hnext] using ih s' t u rest hrun hsu' (by simpa [hinp, hnext] using hu)
      | false =>
        simp only [hinp, Bool.not_false, List.filter_cons_of_pos, List.cons_append] at hu
        obtain ⟨u', hstep', hsu'⟩ := step_sameFramer s s' u inp rs _ hs hu hinp hstep hsu
        have hu' : u'.inputs = u.inputs.tail := step_inputs u u' hstep'
        obtain ⟨v, hv, htv⟩ := ih s' t u' rest hrun hsu' (by rw [hu', hu, hnext, List.tail_cons])
        refine ⟨v, ?_, htv⟩
        rw [List.filter_cons_of_pos (by simp [hinp]), List.length_cons, run_succ_of_next _ u u' hstep', ← hnext]
        exact hv

end Sys2Proof.Machine

namespace Sys2Proof.Machine

/-! ## The decoder reads the encoding back (30_encoding.md R73, R81, R82) -/

/-- The byte class of the rows after `RX.SOF` (R73). -/
theorem notSof_iff (b : Byte) : notSof b = true ↔ b ≠ sofByte := by
  simp [notSof]

/-- The byte class `OTHER` (R72). -/
theorem ordinaryByte_iff (b : Byte) : ordinaryByte b = true ↔ b ≠ sofByte ∧ b ≠ ckmByte := by
  simp [ordinaryByte]

/-- The frame-start byte begins a frame in every mode. -/
theorem decodeStream_sof (m : DecodeMode) : decodeStream m sofByte = .rxSof := if_pos rfl

/-- In `COLLECT` with room an ordinary byte is captured. -/
theorem decodeStream_collect_room (m : DecodeMode) (b : Byte) (hcollect : m.fst = .collect) (hroom : m.room = true)
    (hsof : b ≠ sofByte) (hckm : b ≠ ckmByte) : decodeStream m b = .rxData b := by
  simp [decodeStream, hcollect, hroom, hsof, hckm]

/-- In `RDCK` any byte but `/` is a checksum byte, the fourth one when `ckcnt = 3`. -/
theorem decodeStream_rdck (m : DecodeMode) (b : Byte) (hrdck : m.fst = .rdck) (hsof : b ≠ sofByte) :
    decodeStream m b = if m.last then .rxCke b else .rxCkb b := by
  simp [decodeStream, hrdck, hsof]

/-- The byte that encodes a well-formed stream form decodes to that form wherever its row applies. -/
theorem decodeStream_of_encode (m : DecodeMode) (i : Instr) (b : Byte) (hwf : i.wellFormed = true)
    (happ : i.appliesIn m = true) (hencode : encode i = .rx b) : decodeStream m b = i := by
  cases i with
  | rxSof => cases hencode; exact decodeStream_sof m
  | rxSkip _ =>
    cases hencode
    exact decodeStream_idle m b (by simpa [Instr.appliesIn] using happ) ((notSof_iff b).mp hwf)
  | rxCkm => cases hencode; exact decodeStream_collect_marker m (by simpa [Instr.appliesIn] using happ)
  | rxData _ =>
    cases hencode
    obtain ⟨hcollect, hroom⟩ : m.fst = .collect ∧ m.room = true := by simpa [Instr.appliesIn] using happ
    obtain ⟨hsof, hckm⟩ := (ordinaryByte_iff b).mp hwf
    exact decodeStream_collect_room m b hcollect hroom hsof hckm
  | rxDrop _ =>
    cases hencode
    obtain ⟨hcollect, hfull⟩ : m.fst = .collect ∧ m.room = false := by simpa [Instr.appliesIn] using happ
    obtain ⟨hsof, hckm⟩ := (ordinaryByte_iff b).mp hwf
    exact decodeStream_collect_full m b hcollect hfull hsof hckm
  | rxCkb _ =>
    cases hencode
    obtain ⟨hrdck, hlast⟩ : m.fst = .rdck ∧ m.last = false := by simpa [Instr.appliesIn] using happ
    simp [decodeStream_rdck m b hrdck ((notSof_iff b).mp hwf), hlast]
  | rxCke _ =>
    cases hencode
    obtain ⟨hrdck, hlast⟩ : m.fst = .rdck ∧ m.last = true := by simpa [Instr.appliesIn] using happ
    simp [decodeStream_rdck m b hrdck ((notSof_iff b).mp hwf), hlast]
  | _ => cases hencode

/-- A reserved code decodes to the reserved operation, whatever the other fields (R82). -/
theorem decodeHost_reserved (r : HostRecord) (h : reservedHop r.hop = true) :
    decodeHost r = .ok (.hReserved r.hop) := by
  have hnumber : r.hop.toNat = 0 ∨ 11 ≤ r.hop.toNat := by simpa [reservedHop] using h
  unfold decodeHost
  split
  case h_11 => rfl
  all_goals omega

/-- The record that encodes a well-formed host operation decodes to that operation, with its operands. -/
theorem decodeHost_of_encode (i : Instr) (r : HostRecord) (hwf : i.wellFormed = true) (hencode : encode i = .host r) :
    decodeHost r = .ok i := by
  cases i with
  | extField tag unit =>
    cases hencode
    obtain ⟨htag, hunit⟩ := Bool.and_eq_true_iff.mp hwf
    exact (checkTagUnit_ok _ _ _ _).mpr ⟨htag, hunit, rfl⟩
  | extDate tag | extTime tag => cases hencode; exact (checkTag_ok _ _ _).mpr ⟨hwf, rfl⟩
  | hReserved hop => cases hencode; exact decodeHost_reserved _ hwf
  | _ => cases hencode <;> rfl

/-- The reset event encodes `RESET` alone (R70). -/
theorem eq_reset_of_encode (i : Instr) (hencode : encode i = .reset) : i = .reset := by
  cases i with
  | reset => rfl
  | _ => cases hencode

/-- Settles O50, by what the operation is encoded as: a byte, a record or the reset event. -/
theorem decodeOfEncodeIsTheOperation : Obligations.DecodeOfEncodeIsTheOperation := by
  intro i m hwf happ
  cases hencode : encode i with
  | rx b => rw [decode_rx, decodeStream_of_encode m i b hwf happ hencode]
  | host r => rw [decode_host, decodeHost_of_encode i r hwf hencode]
  | reset => rw [decode_reset, eq_reset_of_encode i hencode]

/-- Settles O47: the form a byte decodes to applies and is encoded by it (O54's lemmas), and any other row that applies
and is encoded by it is that form (O50's lemma). -/
theorem streamRowsAreExhaustiveAndDisjoint : Obligations.StreamRowsAreExhaustiveAndDisjoint := by
  intro m b i
  constructor
  · rintro ⟨hwf, happ, hencode⟩
    exact (decodeStream_of_encode m i b hwf happ hencode).symm
  · rintro rfl
    obtain ⟨hwf, happ⟩ := decodeStream_wellFormed_appliesIn m b
    exact ⟨hwf, happ, encode_decodeStream m b⟩

/-! ## What the decoder rejects (30_encoding.md R80; log 8) -/

/-- An operand does not fit when it is longer than `PATMAX` (R7, R80). -/
theorem operandFits_eq_false (s : ByteString) : operandFits s = false ↔ 255 < s.length := by
  rw [operandFits, decide_eq_false_iff_not, Nat.not_le, patMax]

theorem checkTag_error (tag : ByteString) (i : Instr) :
    (∃ e, checkTag tag i = .error e) ↔ 255 < tag.length := by
  rw [← operandFits_eq_false]
  unfold checkTag
  cases operandFits tag <;> simp

theorem checkTagUnit_error (tag unit : ByteString) (i : Instr) :
    (∃ e, checkTagUnit tag unit i = .error e) ↔ 255 < tag.length ∨ 255 < unit.length := by
  rw [← operandFits_eq_false, ← operandFits_eq_false]
  unfold checkTagUnit
  cases operandFits tag <;> cases operandFits unit <;> simp

/-- A record is rejected for an over-long operand that its code uses, and for nothing else. -/
theorem decodeHost_error (r : HostRecord) :
    (∃ e, decodeHost r = .error e) ↔
      (r.hop = 0x8#4 ∧ (255 < r.tag.length ∨ 255 < r.unit.length)) ∨
      ((r.hop = 0x9#4 ∨ r.hop = 0xA#4) ∧ 255 < r.tag.length) := by
  simp only [BitVec.toNat_eq, BitVec.toNat_ofNat, Nat.reducePow, Nat.reduceMod]
  unfold decodeHost
  split
  case h_8 hop => simp [hop, checkTagUnit_error]
  case h_9 hop | h_10 hop => simp [hop, checkTag_error]
  all_goals simp_all

/-- Settles O51: what the decoder gives is well-formed and applies, so its encoding is read back (O50); a stream byte
and the reset event are never rejected. -/
theorem decoderGivesOnlyWellFormedOperations : Obligations.DecoderGivesOnlyWellFormedOperations := by
  refine ⟨fun m inp i hdecode => ?_, fun m inp => ?_⟩
  · obtain ⟨hwf, happ⟩ := decode_wellFormed_appliesIn m inp i hdecode
    exact ⟨hwf, happ, decodeOfEncodeIsTheOperation i m hwf happ⟩
  · cases inp with
    | rx b => simp
    | host r => simpa using decodeHost_error r
    | reset => simp

/-! ## The opcode table (30_encoding.md R81, R82, R88) -/

/-- Settles O49: the decoder's match on the number of the code is the chain of codes, and the operands fit. -/
theorem hostCodesDecodeToTheirOperations : Obligations.HostCodesDecodeToTheirOperations := by
  intro m r htag hunit
  simp only [decode_host, BitVec.toNat_eq, BitVec.toNat_ofNat, Nat.reducePow, Nat.reduceMod]
  unfold decodeHost
  split
  case h_8 hop => simpa [hop, checkTagUnit_ok] using ⟨htag, hunit⟩
  case h_9 hop | h_10 hop => simpa [hop, checkTag_ok] using htag
  all_goals simp_all

/-- The element of smallest order among those that select, the first of equals: what both tables are read by (R88). -/
def leastBy {α : Type} (selects : α → Bool) (order : α → Nat) : List α → Option α
  | [] => none
  | row :: rows =>
    if selects row then
      match leastBy selects order rows with
      | none => some row
      | some other => if order other < order row then some other else some row
    else leastBy selects order rows

theorem leastRow_eq_leastBy (m : DecodeMode) (b : Byte) (rows : List StreamRow) :
    leastRow m b rows = leastBy (fun row => row.selects m b) StreamRow.order rows := by
  induction rows with
  | nil => rfl
  | cons row rows ih =>
    rw [leastRow, leastBy, ih]
    cases leastBy (fun row => row.selects m b) StreamRow.order rows <;> rfl

theorem leastHostRow_eq_leastBy (hop : BitVec 4) (rows : List HostRow) :
    leastHostRow hop rows = leastBy (fun row => (hop &&& row.mask) == row.bits) HostRow.order rows := by
  induction rows with
  | nil => rfl
  | cons row rows ih =>
    rw [leastHostRow, leastBy, ih]
    cases leastBy (fun row => (hop &&& row.mask) == row.bits) HostRow.order rows <;> rfl

/-- In a list sorted by order the first element that selects is the one of smallest order. -/
theorem leastBy_eq_find? {α : Type} (selects : α → Bool) (order : α → Nat) (rows : List α)
    (hsorted : rows.Pairwise (fun row other => order row ≤ order other)) :
    leastBy selects order rows = rows.find? selects := by
  induction rows with
  | nil => rfl
  | cons row rows ih =>
    obtain ⟨hrow, hrows⟩ := List.pairwise_cons.mp hsorted
    rw [leastBy, ih hrows]
    cases hselects : selects row with
    | false => simp [hselects]
    | true =>
      cases hrest : rows.find? selects with
      | none => simp [hselects]
      | some other =>
        have hle : order row ≤ order other := hrow other (List.mem_of_find?_eq_some hrest)
        simp [hselects, Nat.not_lt.mpr hle]

/-- A byte decodes by the first stream row that selects, as the table lists its rows by order. -/
theorem tableDecodeStream_eq_find? (m : DecodeMode) (b : Byte) :
    tableDecodeStream m b = (streamTable.find? (fun row => row.selects m b)).map (fun row => row.form b) := by
  rw [tableDecodeStream, leastRow_eq_leastBy, leastBy_eq_find? _ _ _ (by decide)]

/-- A record decodes by the first row that matches its code, as the table lists its rows by order. -/
theorem tableDecodeHost_eq_find? (r : HostRecord) :
    tableDecodeHost r =
      (hostTable.find? (fun row => (r.hop &&& row.mask) == row.bits)).map (fun row => row.form r) := by
  rw [tableDecodeHost, leastHostRow_eq_leastBy, leastBy_eq_find? _ _ _ (by decide)]

/-- The first stream row that selects is the decoder's (R73). -/
theorem tableDecodeStream_eq_decodeStream (m : DecodeMode) (b : Byte) :
    tableDecodeStream m b = some (decodeStream m b) := by
  obtain ⟨fst, room, last⟩ := m
  rw [tableDecodeStream_eq_find?]
  by_cases hsof : b = 0x2F#8
  · subst hsof
    cases fst <;> rfl
  · have hall : b &&& 0xFF#8 = b := BitVec.and_allOnes
    cases fst with
    | idle =>
      simp [streamTable, StreamRow.selects, condHolds, hall, hsof,
        decodeStream_idle ⟨.idle, room, last⟩ b rfl hsof]
    | collect =>
      by_cases hckm : b = 0x21#8
      · subst hckm
        cases room <;> rfl
      · cases room with
        | true =>
          simp [streamTable, StreamRow.selects, condHolds, hall, hsof, hckm,
            decodeStream_collect_room ⟨.collect, true, last⟩ b rfl rfl hsof hckm]
        | false =>
          simp [streamTable, StreamRow.selects, condHolds, hall, hsof, hckm,
            decodeStream_collect_full ⟨.collect, false, last⟩ b rfl rfl hsof hckm]
    | rdck =>
      cases last <;>
        simp [streamTable, StreamRow.selects, condHolds, hall, hsof, decodeStream_rdck ⟨.rdck, room, _⟩ b rfl hsof]

/-- The row of a code is the decoder's (R81), and codes that no other row matches fall to the last one (R82). -/
theorem tableDecodeHost_of_decodeHost (r : HostRecord) (i : Instr) (h : decodeHost r = .ok i) :
    tableDecodeHost r = some i := by
  have hcode : r.hop = BitVec.ofNat 4 r.hop.toNat := by simp
  unfold decodeHost at h
  split at h
  case h_8 hop =>
    obtain ⟨_, _, rfl⟩ := (checkTagUnit_ok _ _ _ _).mp h
    rw [tableDecodeHost, hcode, hop]
    rfl
  case h_9 hop | h_10 hop =>
    obtain ⟨_, rfl⟩ := (checkTag_ok _ _ _).mp h
    rw [tableDecodeHost, hcode, hop]
    rfl
  case h_11 =>
    cases h
    have hall : r.hop &&& 0xF#4 = r.hop := BitVec.and_allOnes
    simp_all [tableDecodeHost_eq_find?, hostTable, BitVec.toNat_eq]
  all_goals
    cases h
    rw [tableDecodeHost, hcode, ‹r.hop.toNat = _›]
    rfl

/-- Settles O48: both tables are listed by order, so the first row that matches is the one of smallest order, and it is
the row the decoder takes. -/
theorem decoderIsTheOpcodeTable : Obligations.DecoderIsTheOpcodeTable := by
  refine ⟨tableDecodeStream_eq_decodeStream, fun r htag hunit => ?_⟩
  obtain ⟨i, hdecode⟩ := decodeHost_ok_of_operandFits r htag hunit
  exact ⟨i, tableDecodeHost_of_decodeHost r i hdecode, hdecode⟩

/-! ## Checksum text (30_encoding.md R75, R76) -/

/-- The digit of a nibble, in numbers (R75). -/
theorem hexchar_toNat (n : BitVec 4) :
    (hexchar n).toNat = if n.toNat ≤ 9 then 0x30 + n.toNat else 0x41 + (n.toNat - 10) := by
  have hn := n.isLt
  unfold hexchar
  split_ifs <;> simp only [BitVec.toNat_ofNat] <;> omega

/-- The nibble `v[4j+3 : 4j]` of a word, in numbers. -/
theorem nibble_toNat (v : BitVec 16) (j : Nat) : (v.extractLsb' (4 * j) 4).toNat = v.toNat / 16 ^ j % 16 := by
  rw [BitVec.extractLsb'_toNat, Nat.shiftRight_eq_div_pow, Nat.pow_mul]

/-- The `k`-th character of `hex4(v)` is the digit of the `k`-th nibble from the most significant end (R75). -/
theorem hex4_getElem (v : BitVec 16) (k : Nat) (h : k < 4) :
    (quadList (hex4 v))[k]'h = hexchar (v.extractLsb' (4 * (3 - k)) 4) := by
  match k, h with
  | 0, _ | 1, _ | 2, _ | 3, _ => rfl

/-- Settles O9: the digit of each nibble. -/
theorem hexTextOfAWord : Obligations.HexTextOfAWord := by
  intro v k h
  rw [hex4_getElem, hexchar_toNat, nibble_toNat]

/-- `c` and a digit `h` of `hex4` have one upper form exactly when `c` is the upper-case or lower-case form of `h`. -/
theorem upper_eq_upper_hexchar (n : BitVec 4) (c : Byte) :
    upper c = upper (hexchar n) ↔ SameDigit (hexchar n) c := by
  have hn := n.isLt
  have hc := c.isLt
  have hdigit := hexchar_toNat n
  generalize hexchar n = h at *
  have hupper : upper h = h := by
    unfold upper
    split_ifs at hdigit <;> rw [if_neg (by omega)]
  rw [hupper]
  unfold upper SameDigit
  simp only [BitVec.toNat_eq, BitVec.toNat_add, BitVec.toNat_ofNat]
  by_cases hlower : 0x61 ≤ c.toNat ∧ c.toNat ≤ 0x7A
  · rw [if_pos hlower, BitVec.toNat_sub, BitVec.toNat_ofNat]
    split_ifs at hdigit <;> omega
  · rw [if_neg hlower]
    split_ifs at hdigit <;> omega

/-- `cmpci` is equality of the upper forms, character by character (R76). -/
theorem cmpci_iff (h c : Quad) : cmpci h c = true ↔
    upper c.c0 = upper h.c0 ∧ upper c.c1 = upper h.c1 ∧ upper c.c2 = upper h.c2 ∧ upper c.c3 = upper h.c3 := by
  simp [cmpci, and_assoc]

/-- Settles O10: `cmpci` is character by character, and the characters of `hex4` are digits. -/
theorem checksumComparisonIgnoresLetterCase : Obligations.ChecksumComparisonIgnoresLetterCase := by
  refine ⟨fun _ => rfl, fun h c => ?_, fun v c => ?_⟩
  · simp [cmpci_iff, quadList]
  · simp [cmpci_iff, hex4, upper_eq_upper_hexchar]

/-- Settles O53: the decoder run on each word. -/
theorem writtenOutWordsDecode : Obligations.WrittenOutWordsDecode :=
  ⟨rfl, rfl, rfl, rfl, rfl, rfl, rfl, rfl⟩

end Sys2Proof.Machine

namespace Sys2Proof.Machine

/-! ## The CRC unit's operations (40_crc.md R104 to R107) -/

/-- Settles O3: the meaning of `CRC.CLR` writes `gcrc` and the response. -/
theorem crcClrZeroesGcrc : Obligations.CrcClrZeroesGcrc :=
  fun _ => ⟨_, rfl, rfl, rfl⟩

/-- Settles O5: the meanings of `CRC.RD` and `CRC.HEX` write the response alone. -/
theorem crcReadsAnswerGcrc : Obligations.CrcReadsAnswerGcrc :=
  fun _ => ⟨⟨_, rfl, rfl, rfl⟩, ⟨_, rfl, rfl, rfl⟩⟩

/-! ## One byte, bit by bit (40_crc.md R100, R101, R103) -/

/-- A sequence of registers in which each of the eight bits of `b` makes the next one ends in `crc_byte` (R101). -/
theorem crcByte_eq_of_bits (c : Nat → CrcWord) (b : Byte)
    (hbit : ∀ k, k < 8 → c (k + 1) = crcBit (c k) (b.getLsbD k)) : crcByte (c 0) b = c 8 := by
  rw [crcByte_eq, ← hbit 0 (by decide), ← hbit 1 (by decide), ← hbit 2 (by decide), ← hbit 3 (by decide),
    ← hbit 4 (by decide), ← hbit 5 (by decide), ← hbit 6 (by decide), ← hbit 7 (by decide)]

/-- Settles O4: the sequence of registers the statement describes ends in `crc_byte`. -/
theorem crcUpdFeedsEightBits : Obligations.CrcUpdFeedsEightBits := by
  intro s b c hinit hbit
  refine ⟨_, rfl, rfl, ?_⟩
  rw [← crcByte_eq_of_bits c b hbit, hinit]
  rfl

/-- A data bit equal to bit 0 of the register cancels the feedback: the bit only shifts. -/
theorem crcBit_lsb (c : CrcWord) : crcBit c (c.getLsbD 0) = c >>> 1 := by
  simp [crcBit]

/-- A byte equal to the low byte of the register shifts the register by eight: no bit of it feeds back. -/
theorem crcByte_lowByte (c : CrcWord) : crcByte c (c.setWidth 8) = c >>> 8 := by
  refine crcByte_eq_of_bits (fun k => c >>> k) (c.setWidth 8) fun k hk => ?_
  have hlsb : (c.setWidth 8).getLsbD k = (c >>> k).getLsbD 0 := by simp [hk]
  simp only [hlsb, crcBit_lsb, BitVec.shiftRight_add]

/-- A byte that enters a register is the register's low byte with the rest fed to a zero register: the table form
(R103). -/
theorem crcByte_table (c : CrcWord) (b : Byte) :
    crcByte c b = (c >>> 8) ^^^ crcByte 0x0000#16 ((c ^^^ b.setWidth 16).setWidth 8) := by
  have hbyte : c.setWidth 8 ^^^ (c ^^^ b.setWidth 16).setWidth 8 = b := by
    simp [BitVec.setWidth_xor]
  have hsum := crcByte_xor c 0x0000#16 (c.setWidth 8) ((c ^^^ b.setWidth 16).setWidth 8)
  rwa [hbyte, BitVec.xor_zero, crcByte_lowByte] at hsum

/-- A byte may be XORed into the register first; eight zero bits then do the rest (R101). -/
theorem crcByte_eq_crcByte_xor_zero (c : CrcWord) (b : Byte) : crcByte c b = crcByte (c ^^^ b.setWidth 16) 0x00#8 := by
  have hhigh : b.setWidth 16 >>> 8 = 0x0000#16 := by
    apply BitVec.eq_of_toNat_eq
    rw [BitVec.toNat_ushiftRight, BitVec.toNat_setWidth_of_le (by decide), Nat.shiftRight_eq_zero _ _ b.isLt,
      BitVec.toNat_zero]
  rw [crcByte_table, crcByte_table (c ^^^ b.setWidth 16), BitVec.setWidth_zero, BitVec.xor_zero,
    BitVec.ushiftRight_xor_distrib, hhigh, BitVec.xor_zero]

/-- The step of the software form is `crc_bit` with a zero data bit (R101). -/
theorem crcBit_false (c : CrcWord) :
    crcBit c false = if c.getLsbD 0 = true then (c >>> 1) ^^^ 0xA001#16 else c >>> 1 := by
  rw [crcBit, Bool.xor_false, poly]
  split_ifs
  · rfl
  · exact BitVec.xor_zero

/-- The software form: XOR the byte in, then eight shifts with feedback (R101). -/
theorem crcByte_software (c : CrcWord) (b : Byte) (r : Nat → CrcWord) (hinit : r 0 = c ^^^ b.setWidth 16)
    (hstep : ∀ k, k < 8 → r (k + 1) = if (r k).getLsbD 0 = true then (r k >>> 1) ^^^ 0xA001#16 else r k >>> 1) :
    crcByte c b = r 8 := by
  rw [crcByte_eq_crcByte_xor_zero, ← hinit]
  refine crcByte_eq_of_bits r 0x00#8 fun k hk => ?_
  rw [BitVec.getLsbD_zero, crcBit_false, hstep k hk]

/-- Settles O6: both forms, linearity at a zero register, and the eight table entries computed. -/
theorem crcByteSoftwareAndTableForms : Obligations.CrcByteSoftwareAndTableForms :=
  ⟨crcByte_software, crcByte_table, crcByte_xor 0x0000#16 0x0000#16, by decide⟩

/-! ## Strings (40_crc.md R102, R110) -/

/-- A longer string continues from the register its front part leaves (R108). -/
theorem foldl_crcByte_crc16 (u v : ByteString) : v.foldl crcByte (crc16 u) = crc16 (u ++ v) :=
  List.foldl_append.symm

/-- A zero byte keeps a zero register, so leading zero bytes do not count (R110). -/
theorem crc16_zero_cons (s : ByteString) : crc16 (0x00#8 :: s) = crc16 s := by
  have hzero : crcByte crcInit 0x00#8 = crcInit := by decide
  rw [crc16, List.foldl_cons, hzero, crc16]

/-- Strings of one length are linear over XOR, from any two registers (R110). -/
theorem foldl_crcByte_xorStrings (s t : ByteString) (hlen : s.length = t.length) (c d : CrcWord) :
    (xorStrings s t).foldl crcByte (c ^^^ d) = s.foldl crcByte c ^^^ t.foldl crcByte d := by
  induction s generalizing t c d with
  | nil =>
    obtain rfl : t = [] := List.length_eq_zero_iff.mp hlen.symm
    rfl
  | cons a s ih =>
    cases t with
    | nil => cases hlen
    | cons b t =>
      have htail := ih t (Nat.succ.inj hlen) (crcByte c a) (crcByte d b)
      rwa [← crcByte_xor] at htail

/-- Settles O7: the zero byte at either end, and linearity from zero registers. -/
theorem crcOfStringsIsLinear : Obligations.CrcOfStringsIsLinear :=
  ⟨crc16_zero_cons, ⟨[0x01#8], by decide⟩,
    fun s t hlen => foldl_crcByte_xorStrings s t hlen crcInit crcInit⟩

/-! ## `gcrc` over a run (40_crc.md R108, 10_state.md R21, 70_reset_and_hazards.md R233) -/

/-- The code of a record is the code of the operation it decodes to (30_encoding.md R81, R82). -/
theorem encode_hop_of_decodeHost (r : HostRecord) (i : Instr) (h : decodeHost r = .ok i) :
    ∃ r', encode i = .host r' ∧ r'.hop = r.hop := by
  unfold decodeHost at h
  split at h
  case h_8 hop =>
    obtain ⟨_, _, rfl⟩ := (checkTagUnit_ok _ _ _ _).mp h
    exact ⟨_, rfl, BitVec.eq_of_toNat_eq hop.symm⟩
  case h_9 hop | h_10 hop =>
    obtain ⟨_, rfl⟩ := (checkTag_ok _ _ _).mp h
    exact ⟨_, rfl, BitVec.eq_of_toNat_eq hop.symm⟩
  case h_11 => cases h; exact ⟨_, rfl, rfl⟩
  case h_1 hop | h_2 hop | h_3 hop | h_4 hop | h_5 hop | h_6 hop | h_7 hop =>
    cases h
    exact ⟨_, rfl, BitVec.eq_of_toNat_eq hop.symm⟩

/-- `CRC.CLR` is what the records with code 1 decode to (R81). -/
theorem decodeHost_eq_crcClr (r : HostRecord) : decodeHost r = .ok .crcClr ↔ r.hop = 0x1#4 := by
  constructor
  · intro h
    obtain ⟨r', hencode, hhop⟩ := encode_hop_of_decodeHost r _ h
    cases hencode
    exact hhop.symm
  · intro h
    simp [decodeHost, h]

/-- `CRC.UPD b` is what the records with code 2 and the byte `b` decode to (R81). -/
theorem decodeHost_eq_crcUpd (r : HostRecord) (b : Byte) :
    decodeHost r = .ok (.crcUpd b) ↔ r.hop = 0x2#4 ∧ r.b = b := by
  have hcode : r.hop = 0x2#4 → decodeHost r = .ok (.crcUpd r.b) := fun h => by simp [decodeHost, h]
  constructor
  · intro h
    obtain ⟨r', hencode, hhop⟩ := encode_hop_of_decodeHost r _ h
    cases hencode
    rw [hcode hhop.symm] at h
    cases h
    exact ⟨hhop.symm, rfl⟩
  · rintro ⟨hhop, rfl⟩
    exact hcode hhop

/-- A stream byte decodes to no host operation (R73). -/
theorem decodeStream_ne_of_isHost (m : DecodeMode) (b : Byte) (i : Instr) (h : isHost (encode i) = true) :
    decodeStream m b ≠ i := by
  rintro rfl
  rw [encode_decodeStream] at h
  cases h

/-- What `keepsGcrc` excludes decodes to `CRC.CLR` or `RESET`, and nothing else does. -/
theorem keepsGcrc_eq_false_iff (m : DecodeMode) (inp : Input) :
    keepsGcrc inp = false ↔ decode m inp = .ok .crcClr ∨ decode m inp = .ok .reset := by
  rw [decode_eq_reset]
  cases inp with
  | rx b => simp [keepsGcrc, decodeStream_ne_of_isHost m b .crcClr rfl]
  | host r => simp [keepsGcrc, decodeHost_eq_crcClr]
  | reset => simp [keepsGcrc]

/-- The operations that supply the byte `b` are those that decode to `CRC.UPD b`. -/
theorem updBytes_eq_singleton_iff (m : DecodeMode) (inp : Input) (b : Byte) :
    updBytes [inp] = [b] ↔ decode m inp = .ok (.crcUpd b) := by
  cases inp with
  | rx x => simp [updBytes, decodeStream_ne_of_isHost m x (.crcUpd b) rfl]
  | host r =>
    rw [decode_host, decodeHost_eq_crcUpd]
    by_cases hhop : r.hop = 0x2#4 <;> simp [updBytes, hhop]
  | reset => simp [updBytes]

/-- The bytes an operation supplies come before those of the operations after it. -/
theorem updBytes_cons (inp : Input) (rest : List Input) : updBytes (inp :: rest) = updBytes [inp] ++ updBytes rest := by
  cases inp with
  | rx _ | reset => rfl
  | host r => by_cases hhop : r.hop = 0x2#4 <;> simp [updBytes, hhop]

/-- An operation supplies at most one byte. -/
theorem updBytes_singleton (inp : Input) : updBytes [inp] = [] ∨ ∃ b, updBytes [inp] = [b] := by
  cases inp with
  | rx _ | reset => exact .inl rfl
  | host r => by_cases hhop : r.hop = 0x2#4 <;> simp [updBytes, hhop]

/-- A step of the run folds the byte its operation supplies, if any, into `gcrc`. -/
theorem step_gcrc (s t : State) (inp : Input) (rest : List Input) (hi : s.inputs = inp :: rest)
    (hkeeps : keepsGcrc inp = true) (h : step s = .next t) :
    t.gcrc = (updBytes [inp]).foldl crcByte s.gcrc := by
  obtain ⟨i, hdecode, hexec⟩ := step_cons_next s t inp rest hi h
  obtain ⟨hclr, hreset⟩ : i ≠ .crcClr ∧ i ≠ .reset := by
    have hnot := (keepsGcrc_eq_false_iff (decodeMode s) inp).not
    simpa [hkeeps, hdecode] using hnot
  rcases updBytes_singleton inp with hnone | ⟨b, hbyte⟩
  · have hupd : ∀ b, i ≠ .crcUpd b := by
      rintro b rfl
      simp [(updBytes_eq_singleton_iff _ _ b).mpr hdecode] at hnone
    rw [hnone, exec_gcrc_unchanged i _ t hexec hclr hupd hreset, List.foldl_nil]
  · rw [(updBytes_eq_singleton_iff (decodeMode s) inp b).mp hbyte] at hdecode
    cases hdecode
    cases hexec
    rw [hbyte]
    rfl

/-- Along a run without `CRC.CLR` and `RESET`, `gcrc` takes in the bytes supplied, in order, and nothing else (R108). -/
theorem run_gcrc (n : Nat) (s t : State) (hrun : run n s = .next t)
    (hkeeps : ∀ inp ∈ s.inputs.take n, keepsGcrc inp = true) :
    t.gcrc = (updBytes (s.inputs.take n)).foldl crcByte s.gcrc := by
  induction n generalizing s with
  | zero =>
    cases hrun
    rfl
  | succ n ih =>
    obtain ⟨u, hstep, hrun⟩ := run_succ_next n s t hrun
    have hu : u.inputs = s.inputs.tail := step_inputs s u hstep
    cases hs : s.inputs with
    | nil =>
      obtain rfl : s = u := by simpa [step_nil s hs] using hstep
      simpa [hs] using ih s hrun (by simp [hs])
    | cons inp rest =>
      rw [hs, List.tail_cons] at hu
      rw [hs, List.take_succ_cons, List.forall_mem_cons] at hkeeps
      obtain ⟨hfirst, hrest⟩ := hkeeps
      have htail := ih u hrun (by rwa [hu])
      rw [hu, step_gcrc s u inp rest hs hfirst hstep] at htail
      rw [htail, List.take_succ_cons, ← List.foldl_append, updBytes_cons inp (rest.take n)]

/-- `CRC.CLR` clears `gcrc` and leaves the operations after it (R104). -/
theorem step_crcClr (s t : State) (rest : List Input) (hi : s.inputs = encode .crcClr :: rest)
    (h : step s = .next t) : t.gcrc = crcInit ∧ t.inputs = rest := by
  cases (step_cons s _ rest hi).symm.trans h
  exact ⟨rfl, rfl⟩

/-- Settles O8: the run's fold, from `CRCINIT` after a `CRC.CLR`, and the fold over a joined string. -/
theorem gcrcIsTheCrcOfTheSuppliedBytes : Obligations.GcrcIsTheCrcOfTheSuppliedBytes := by
  refine ⟨run_gcrc, fun n s t rest hi hrun hkeeps => ?_, foldl_crcByte_crc16⟩
  obtain ⟨u, hstep, hrun⟩ := run_succ_next n s t hrun
  obtain ⟨hclear, rfl⟩ := step_crcClr s u rest hi hstep
  rw [run_gcrc n u t hrun hkeeps, hclear, crc16]

end Sys2Proof.Machine

namespace Sys2Proof.Machine

/-! ## The seven stream forms (41_framer.md R121 to R127)

Each is its meaning, with what the shared updates `restart`, `append` and `Memory.write` do. -/

/-- Settles O11: the meaning of `RX.SOF`, with the CRC of `/` computed. -/
theorem rxSofRestartsTheFrame : Obligations.RxSofRestartsTheFrame := by
  intro s
  refine ⟨_, rfl, rfl, rfl, ?_⟩
  rw [← crcByte_sof]
  rfl

/-- Settles O12: `restart` lists index 0 alone. -/
theorem rxSofEmptiesTheRestOfTheBuffer : Obligations.RxSofEmptiesTheRestOfTheBuffer := by
  intro s t h i hi
  cases h
  simp [Nat.ne_zero_of_lt hi]

/-- Settles O13: both meanings write the response alone. -/
theorem skippedAndDroppedBytesWriteNothing : Obligations.SkippedAndDroppedBytesWriteNothing :=
  fun _ _ => ⟨⟨_, rfl, rfl, rfl⟩, ⟨_, rfl, rfl, rfl⟩⟩

/-- Settles O14: with room `RX.DATA` is `append`, which writes at `len`. -/
theorem rxDataAppendsOneByte : Obligations.RxDataAppendsOneByte := fun s b hroom =>
  ⟨_, (execRxData_next b s _).mpr ⟨hroom, rfl⟩, rfl, Memory.read_write s.buf s.len b, rfl⟩

/-- A marker that fits is stored like any other byte (R125). -/
theorem execRxCkm_room (s : State) (hroom : s.len < s.cfg.maxlen) :
    execRxCkm s = .next (respond .none { append ckmByte s with ckcnt := 0, fst := .rdck }) := by
  simp [execRxCkm, hroom]

/-- Settles O15: one clause with room, one with a full buffer. -/
theorem rxCkmBeginsChecksumReading : Obligations.RxCkmBeginsChecksumReading := fun s =>
  ⟨fun hroom => ⟨_, execRxCkm_room s hroom, rfl, Memory.read_write s.buf s.len ckmByte, rfl⟩,
    fun hfull => ⟨_, execRxCkm_full s (Nat.not_lt.mpr hfull), rfl, rfl⟩⟩

/-- Settles O16: below 3 the count of checksum bytes does not wrap. -/
theorem rxCkbCapturesOneChecksumByte : Obligations.RxCkbCapturesOneChecksumByte := by
  intro s b hlt
  have hnext : (s.ckcnt + 1).val = s.ckcnt.val + 1 := by omega
  exact ⟨_, rfl, rfl, Memory.read_write s.ckf s.ckcnt.val b, hnext, rfl⟩

/-- The fourth character completes the checksum field that holds the first three (R127). -/
theorem Memory.quad_write_three (m : Memory) (c0 c1 c2 b : Byte) (h0 : Memory.read m 0 = some c0)
    (h1 : Memory.read m 1 = some c1) (h2 : Memory.read m 2 = some c2) :
    Memory.quad (Memory.write m 3 b) = some ⟨c0, c1, c2, b⟩ := by
  simp [Memory.quad_eq_some, Memory.read_write, h0, h1, h2]

/-- Settles O17: `RX.CKE` compares with the checksum field that its own character completes. -/
theorem rxCkeCompletesAndValidates : Obligations.RxCkeCompletesAndValidates := by
  intro s b c0 c1 c2 h0 h1 h2
  have hquad := Memory.quad_write_three s.ckf c0 c1 c2 b h0 h1 h2
  exact ⟨_, (execRxCke_next b s _).mpr ⟨_, hquad, rfl⟩, rfl, Memory.read_write s.ckf 3 b, rfl⟩

/-! ## One step on a stream byte (R120, R128, R130) -/

/-- A stream byte is never rejected: the step runs the form it decodes to. -/
theorem step_rx (s : State) (b : Byte) (rest : List Input) (hi : s.inputs = .rx b :: rest) :
    step s = exec (decodeStream (decodeMode s) b) { s with inputs := rest } := by
  rw [step_cons s _ rest hi, decode_rx]

/-- A stream form answers `None`, except that `RX.CKE` answers the flag it leaves in `valid`. -/
theorem exec_stream_resp (i : Instr) (s t : State) (hi : ∃ b, encode i = .rx b) (h : exec i s = .next t) :
    t.resp = .none ∨ ∃ b, i = .rxCke b ∧ t.resp = .done t.valid := by
  obtain ⟨b, hb⟩ := hi
  cases i with
  | rxSof | rxSkip | rxCkm | rxDrop | rxCkb => cases h; exact .inl rfl
  | rxData b => obtain ⟨_, rfl⟩ := (execRxData_next b s t).mp h; exact .inl rfl
  | rxCke b => obtain ⟨c, _, rfl⟩ := (execRxCke_next b s t).mp h; exact .inr ⟨b, rfl, rfl⟩
  | _ => cases hb

/-- The payload has `len` bytes (10_state.md R38). -/
theorem payload_length (s : State) (p : ByteString) (h : s.payload = some p) : p.length = s.len :=
  (Memory.slice_read s.buf s.len 0 p h).1

/-- Settles O18: the form that answers `Done` is `RX.CKE`, which completes the frame; the invariant after the step says
what the flag of a complete frame is. -/
theorem completionChecksExactlyTheCapture : Obligations.CompletionChecksExactlyTheCapture := by
  intro s t b rest v hinv hi hstep hresp
  have hexec := (step_rx s b rest hi).symm.trans hstep
  rcases exec_stream_resp _ _ t ⟨b, encode_decodeStream _ b⟩ hexec with hnone | ⟨b', hform, hdone⟩
  · simp [hnone] at hresp
  · obtain rfl : t.valid = v := by simpa [hdone] using hresp
    rw [hform] at hexec
    obtain ⟨hcomplete, _⟩ := exec_rxCke_flags b' _ t hexec
    obtain ⟨p, c, hp, hquad, hvalid⟩ := (hinv.step hstep).complete_checked hcomplete
    exact ⟨p, c, hp, payload_length t p hp, hquad, hcomplete, rfl, hvalid⟩

/-- One of the first three checksum bytes (R126). -/
theorem step_rxCkb (s : State) (b : Byte) (rest : List Input) (hi : s.inputs = .rx b :: rest) (hrdck : s.fst = .rdck)
    (hlast : s.ckcnt ≠ 3) (hsof : b ≠ sofByte) :
    step s = .next (respond .none
      { s with inputs := rest, ckf := Memory.write s.ckf s.ckcnt.val b, ckcnt := s.ckcnt + 1 }) := by
  rw [step_rx s b rest hi, decodeStream_rdck _ b hrdck hsof, if_neg (by simpa [decodeMode] using hlast)]
  rfl

/-- From `COLLECT` the marker begins checksum reading; any other byte but `/` is captured or dropped there. -/
theorem step_collect_fst (s t : State) (b : Byte) (rest : List Input) (hi : s.inputs = .rx b :: rest)
    (hstep : step s = .next t) (hcollect : s.fst = .collect) (hsof : b ≠ sofByte) :
    t.fst = if b = ckmByte then .rdck else .collect := by
  rw [step_rx s b rest hi] at hstep
  by_cases hckm : b = ckmByte
  · subst hckm
    rw [decodeStream_collect_marker _ hcollect] at hstep
    cases hstep
    rfl
  · rw [if_neg hckm]
    cases hroom : (decodeMode s).room with
    | true =>
      rw [decodeStream_collect_room _ b hcollect hroom hsof hckm] at hstep
      obtain ⟨_, rfl⟩ := (execRxData_next b _ t).mp hstep
      exact hcollect
    | false =>
      rw [decodeStream_collect_full _ b hcollect hroom hsof hckm] at hstep
      cases hstep
      exact hcollect

/-- From `RDCK` the fourth checksum byte leads to `IDLE`. -/
theorem step_rdck_fst (s t : State) (b : Byte) (rest : List Input) (hi : s.inputs = .rx b :: rest)
    (hstep : step s = .next t) (hrdck : s.fst = .rdck) (hsof : b ≠ sofByte) :
    t.fst = if s.ckcnt.val = 3 then .idle else .rdck := by
  by_cases hlast : s.ckcnt = 3
  · rw [step_rx s b rest hi, decodeStream_rdck _ b hrdck hsof, if_pos (by simpa [decodeMode] using hlast)] at hstep
    obtain ⟨c, _, rfl⟩ := (execRxCke_next b _ t).mp hstep
    simp [hlast]
  · rw [step_rxCkb s b rest hi hrdck hlast hsof] at hstep
    cases hstep
    have hne : s.ckcnt.val ≠ 3 := fun h => hlast (Fin.ext h)
    simp [hrdck, hne]

/-- Settles O23: `/` in any state, and any other byte by the state it finds. -/
theorem streamByteTransitions : Obligations.StreamByteTransitions := by
  intro s t b rest hi hstep
  by_cases hsof : b = sofByte
  · subst hsof
    rw [step_rx s _ rest hi, decodeStream_sof] at hstep
    cases hstep
    rfl
  refine Eq.trans ?_ (if_neg hsof).symm
  cases hfst : s.fst with
  | idle =>
    rw [step_rx s b rest hi, decodeStream_idle _ b hfst hsof] at hstep
    cases hstep
    exact hfst
  | collect => exact step_collect_fst s t b rest hi hstep hfst hsof
  | rdck => exact step_rdck_fst s t b rest hi hstep hfst hsof

/-- Settles O24: the form applies, so the invariant lets it answer; the one that answers `Done` is `RX.CKE`, whose row
says where it applies. -/
theorem rxIsAlwaysAccepted : Obligations.RxIsAlwaysAccepted := by
  intro s b rest hinv hi
  obtain ⟨hwf, happ⟩ := decodeStream_wellFormed_appliesIn (decodeMode s) b
  have hencode := encode_decodeStream (decodeMode s) b
  have hinv' : Inv { s with inputs := rest } := hinv.of_sameFramer ⟨rfl, rfl⟩
  obtain ⟨t, ht⟩ := hinv'.exec_answers _ happ
  refine ⟨t, (step_rx s b rest hi).trans ht, ?_⟩
  rcases exec_stream_resp _ _ t ⟨b, hencode⟩ ht with hnone | ⟨b', hform, hdone⟩
  · exact .inl hnone
  · rw [hform] at hwf happ hencode
    cases hencode
    obtain ⟨hrdck, hlast⟩ : s.fst = .rdck ∧ s.ckcnt = 3 := by simpa [Instr.appliesIn, decodeMode] using happ
    exact .inr ⟨(notSof_iff b).mp hwf, hrdck, hlast, _, hdone⟩

/-! ## A stamped frame (R133) -/

/-- The framer is in state `f` with exactly the bytes `p` captured, no checksum byte read, and `rest` to come. -/
structure Captured (cfg : Config) (f : Fst) (p : ByteString) (rest : List Input) (s : State) : Prop where
  cfg_eq : s.cfg = cfg
  fst_eq : s.fst = f
  ckcnt_eq : s.ckcnt = 0
  payload_eq : s.payload = some p
  fcrc_eq : s.fcrc = crc16 p
  inputs_eq : s.inputs = rest

section
variable {cfg : Config} {f : Fst} {p : ByteString} {b : Byte} {rest : List Input} {s : State}

/-- There is room in the buffer as long as the captured bytes do not fill it. -/
theorem Captured.room (h : Captured cfg f p rest s) (hroom : p.length < cfg.maxlen) : s.len < s.cfg.maxlen := by
  rwa [h.cfg_eq, ← payload_length s p h.payload_eq]

/-- `append` captures one byte more, whichever state the framer goes to. -/
theorem Captured.after_append (h : Captured cfg f p (.rx b :: rest) s) (g : Fst) :
    Captured cfg g (p ++ [b]) rest
      (respond .none { append b { s with inputs := rest } with ckcnt := 0, fst := g }) where
  cfg_eq := h.cfg_eq
  fst_eq := rfl
  ckcnt_eq := rfl
  payload_eq := payload_append b s p h.payload_eq
  fcrc_eq := by simp [crc16_snoc, h.fcrc_eq]
  inputs_eq := rfl

/-- In any state the frame-start byte is captured alone (R121). -/
theorem step_sof_captured (hi : s.inputs = .rx sofByte :: rest) :
    ∃ t, step s = .next t ∧ Captured s.cfg .collect [sofByte] rest t := by
  have hstep : step s = execRxSof { s with inputs := rest } := by
    rw [step_rx s _ rest hi, decodeStream_sof]
    rfl
  exact ⟨_, hstep, rfl, rfl, rfl, rfl, rfl, rfl⟩

/-- An ordinary byte that fits is captured (R123). -/
theorem Captured.step_data (h : Captured cfg .collect p (.rx b :: rest) s) (hroom : p.length < cfg.maxlen)
    (hsof : b ≠ sofByte) (hckm : b ≠ ckmByte) :
    ∃ t, step s = .next t ∧ Captured cfg .collect (p ++ [b]) rest t := by
  have hlen := h.room hroom
  refine ⟨respond .none (append b { s with inputs := rest }), ?_, ?_⟩
  · rw [step_rx s b rest h.inputs_eq,
      decodeStream_collect_room _ b h.fst_eq (by simpa [decodeMode] using hlen) hsof hckm]
    exact (execRxData_next b _ _).mpr ⟨hlen, rfl⟩
  · obtain ⟨hcfg, _, _, hpayload, hfcrc, hinputs⟩ := h.after_append .collect
    exact ⟨hcfg, h.fst_eq, h.ckcnt_eq, hpayload, hfcrc, hinputs⟩

/-- A marker that fits is captured, and checksum reading begins (R125). -/
theorem Captured.step_marker (h : Captured cfg .collect p (.rx ckmByte :: rest) s) (hroom : p.length < cfg.maxlen) :
    ∃ t, step s = .next t ∧ Captured cfg .rdck (p ++ [ckmByte]) rest t := by
  refine ⟨_, ?_, h.after_append .rdck⟩
  rw [step_rx s _ rest h.inputs_eq, decodeStream_collect_marker _ h.fst_eq]
  exact execRxCkm_room _ (h.room hroom)

/-- Ordinary bytes that fit are captured one after the other. -/
theorem Captured.run_content {content : ByteString}
    (h : Captured cfg .collect p (content.map Input.rx ++ rest) s)
    (hfit : p.length + content.length ≤ cfg.maxlen) (hordinary : ∀ b ∈ content, b ≠ sofByte ∧ b ≠ ckmByte) :
    ∃ t, run content.length s = .next t ∧ Captured cfg .collect (p ++ content) rest t := by
  induction content generalizing p s with
  | nil => exact ⟨s, rfl, by simpa using h⟩
  | cons b content ih =>
    obtain ⟨⟨hsof, hckm⟩, hordinary⟩ := List.forall_mem_cons.mp hordinary
    rw [List.length_cons] at hfit
    obtain ⟨u, hstep, hu⟩ := h.step_data (by omega) hsof hckm
    obtain ⟨t, hrun, ht⟩ := ih hu (by rw [List.length_append, List.length_singleton]; omega) hordinary
    rw [List.append_assoc, List.singleton_append] at ht
    exact ⟨t, (run_succ_of_next _ s u hstep).trans hrun, ht⟩

end

/-- The fourth checksum byte (R127). -/
theorem step_rxCke (s : State) (b : Byte) (rest : List Input) (c : Quad) (hi : s.inputs = .rx b :: rest)
    (hrdck : s.fst = .rdck) (hlast : s.ckcnt = 3) (hsof : b ≠ sofByte)
    (hquad : Memory.quad (Memory.write s.ckf 3 b) = some c) :
    step s = .next (respond (.done (validFlag s.fcrc c))
      { s with inputs := rest, ckf := Memory.write s.ckf 3 b, complete := true, valid := validFlag s.fcrc c,
               ckcnt := 0, fst := .idle }) := by
  rw [step_rx s b rest hi, decodeStream_rdck _ b hrdck hsof, if_pos (by simpa [decodeMode] using hlast)]
  exact (execRxCke_next b _ _).mpr ⟨c, hquad, rfl⟩

/-- The array after the four characters of a checksum text, in order of arrival (R126, R127). -/
def Memory.writeQuad (m : Memory) (q : Quad) : Memory :=
  Memory.write (Memory.write (Memory.write (Memory.write m 0 q.c0) 1 q.c1) 2 q.c2) 3 q.c3

theorem Memory.quad_writeQuad (m : Memory) (q : Quad) : Memory.quad (Memory.writeQuad m q) = some q := by
  simp [Memory.writeQuad, Memory.quad_eq_some, Memory.read_write]

/-- Four checksum bytes complete the frame with the comparison of R128. -/
theorem run_checksum (s : State) (q : Quad) (rest : List Input) (hi : s.inputs = (quadList q).map Input.rx ++ rest)
    (hrdck : s.fst = .rdck) (hckcnt : s.ckcnt = 0) (hsof : ∀ c ∈ quadList q, c ≠ sofByte) :
    run 4 s = .next (respond (.done (validFlag s.fcrc q))
      { s with inputs := rest, ckf := Memory.writeQuad s.ckf q, complete := true, valid := validFlag s.fcrc q,
               ckcnt := 0, fst := .idle }) := by
  obtain ⟨h0, h1, h2, h3⟩ : q.c0 ≠ sofByte ∧ q.c1 ≠ sofByte ∧ q.c2 ≠ sofByte ∧ q.c3 ≠ sofByte := by
    simpa [quadList] using hsof
  refine Eq.trans (run_succ_of_next 3 s _ (step_rxCkb s q.c0 _ hi hrdck (by simp [hckcnt]) h0)) ?_
  refine Eq.trans (run_succ_of_next 2 _ _ (step_rxCkb _ q.c1 _ rfl hrdck (by simp [hckcnt]) h1)) ?_
  refine Eq.trans (run_succ_of_next 1 _ _ (step_rxCkb _ q.c2 _ rfl hrdck (by simp [hckcnt]) h2)) ?_
  refine Eq.trans (run_succ_of_next 0 _ _ (step_rxCke _ q.c3 rest q rfl hrdck (by simp [hckcnt]) h3
    (by simpa [hckcnt, Memory.writeQuad] using Memory.quad_writeQuad s.ckf q))) ?_
  simp [hckcnt, respond, Memory.writeQuad]

/-- No checksum character is the frame-start byte, in either letter case. -/
theorem SameDigit.ne_sof {n : BitVec 4} {c : Byte} (h : SameDigit (hexchar n) c) : c ≠ sofByte := by
  have hdigit := hexchar_toNat n
  rintro rfl
  rcases h with heq | ⟨hlow, hhigh, heq⟩
  all_goals
    have hnat := congrArg BitVec.toNat heq
    simp only [sofByte, BitVec.toNat_add, BitVec.toNat_ofNat] at hnat
    split_ifs at hdigit <;> omega

/-- Settles O26: the frame start, the content, the marker and the checksum text are captured in turn. -/
theorem stampedFrameValidates : Obligations.StampedFrameValidates := by
  intro s content q rest hordinary hfit h0 h1 h2 h3 hi
  have hsof : ∀ c ∈ quadList q, c ≠ sofByte := by
    simpa [quadList] using ⟨h0.ne_sof, h1.ne_sof, h2.ne_sof, h3.ne_sof⟩
  obtain ⟨_, _, hcmpci⟩ := checksumComparisonIgnoresLetterCase
  have hvalid : validFlag (crc16 (sofByte :: content ++ [ckmByte])) q = true :=
    (hcmpci _ q).mpr ⟨h0, h1, h2, h3⟩
  obtain ⟨s1, hstart, hs1⟩ := step_sof_captured (s := s)
    (rest := content.map Input.rx ++ (.rx ckmByte :: ((quadList q).map Input.rx ++ rest)))
    (by simpa [sofByte, ckmByte] using hi)
  obtain ⟨s2, hcontent, hs2⟩ := hs1.run_content (by simp; omega) hordinary
  obtain ⟨s3, hmarker, hs3⟩ := hs2.step_marker (by simp; omega)
  have hchecksum := run_checksum s3 q rest hs3.inputs_eq hs3.fst_eq hs3.ckcnt_eq hsof
  rw [hs3.fcrc_eq, List.singleton_append, hvalid] at hchecksum
  have hrun : run (content.length + 6) s = run 4 s3 := by
    rw [run_succ_of_next _ s s1 hstart, run_add content.length 5 s1 s2 hcontent, run_succ_of_next 4 s2 s3 hmarker]
  refine ⟨_, hrun.trans hchecksum, rfl, rfl, ?_, hs3.payload_eq, rfl, rfl, rfl⟩
  simpa using (payload_length s3 _ hs3.payload_eq).symm

end Sys2Proof.Machine

namespace Sys2Proof.Machine

/-! ## Decimal text (30_encoding.md R78, 42_extractor.md R159) -/

/-- Accumulating digit by digit gives the sum of the digits at their places. -/
theorem decimalValue_eq_digitSum (ds : ByteString) : decimalValue ds = digitSum ds := by
  induction ds with
  | nil => rfl
  | cons d ds ih => rw [decimalValue_cons, ih, digitSum]

/-- The value of `n` digits has at most `n` digits. -/
theorem digitSum_lt (ds : ByteString) (hdigits : ∀ b ∈ ds, 0x30 ≤ b.toNat ∧ b.toNat ≤ 0x39) :
    digitSum ds < 10 ^ ds.length := by
  induction ds with
  | nil => decide
  | cons d ds ih =>
    obtain ⟨⟨_, hhigh⟩, htail⟩ := List.forall_mem_cons.mp hdigits
    have hdigit : digit d ≤ 9 := by unfold digit; omega
    calc digit d * 10 ^ ds.length + digitSum ds
        < 9 * 10 ^ ds.length + 10 ^ ds.length :=
          Nat.add_lt_add_of_le_of_lt (Nat.mul_le_mul_right _ hdigit) (ih htail)
      _ = 10 ^ (d :: ds).length := by rw [List.length_cons, Nat.pow_succ]; ring

/-- A byte that is no digit lies below `0` or above `9`. -/
theorem isDigit_eq_false_iff (b : Byte) : isDigit b = false ↔ b.toNat < 0x30 ∨ 0x39 < b.toNat := by
  rw [← Bool.not_eq_true, isDigit_iff]
  omega

/-- A number below `2^32` is carried exactly. -/
theorem valResponse_of_lt (n : Nat) (h : n < 2 ^ 32) : ∃ v, valResponse n = .val v ∧ v.toNat = n :=
  ⟨_, rfl, (BitVec.toNat_ofNat n 32).trans (Nat.mod_eq_of_lt h)⟩

/-! ## Reading a region as a number (R152) -/

/-- The first test of R152: some byte is neither a digit nor the point. -/
theorem any_malformed_iff (r : ByteString) : r.any (fun b => !(isDigit b || b == pointByte)) = true ↔
    ∃ b ∈ r, b ≠ 0x2E#8 ∧ (b.toNat < 0x30 ∨ 0x39 < b.toNat) := by
  simp only [List.any_eq_true, Bool.not_eq_true', Bool.or_eq_false_iff, isDigit_eq_false_iff, beq_eq_false_iff_ne,
    pointByte, and_comm]

theorem readNumber_malformed (r : ByteString) (h : ∃ b ∈ r, b ≠ 0x2E#8 ∧ (b.toNat < 0x30 ∨ 0x39 < b.toNat)) :
    readNumber r = .err .badField := by
  have hne : r ≠ [] := by
    obtain ⟨b, hb, _⟩ := h
    exact List.ne_nil_of_mem hb
  rw [readNumber, if_neg hne, if_pos ((any_malformed_iff r).mpr h)]

/-- With two points the answer is `BADFIELD`, whether or not another byte is malformed. -/
theorem readNumber_points (r : ByteString) (h : 1 < r.count 0x2E#8) : readNumber r = .err .badField := by
  have hne : r ≠ [] := by
    rintro rfl
    cases h
  have hpoints : 1 < r.count pointByte := h
  rw [readNumber, if_neg hne, if_pos hpoints, ite_self]

/-- A region of digits with at most one point is read as the value of its digits; the empty one is the value 0. -/
theorem readNumber_decimal (r : ByteString) (hbytes : ∀ b ∈ r, b = 0x2E#8 ∨ (0x30 ≤ b.toNat ∧ b.toNat ≤ 0x39))
    (hpoint : r.count 0x2E#8 ≤ 1) :
    readNumber r = if 2 ^ 32 ≤ digitSum (r.filter (fun b => b != 0x2E#8)) then .err .overflow
      else valResponse (digitSum (r.filter (fun b => b != 0x2E#8))) := by
  by_cases hne : r = []
  · subst hne
    rfl
  · have hformed : ¬ r.any (fun b => !(isDigit b || b == pointByte)) = true := by
      rw [any_malformed_iff]
      rintro ⟨b, hb, hdot, hrange⟩
      have := (hbytes b hb).resolve_left hdot
      omega
    have hpoint' : ¬ 1 < r.count pointByte := Nat.not_lt.mpr hpoint
    rw [readNumber, if_neg hne, if_neg hformed, if_neg hpoint', decimalValue_eq_digitSum, pointByte]

/-- Settles O29: the tests of R152 in their order; only a well-formed region comes to the comparison with `2^32`. -/
theorem readingARegionAsANumber : Obligations.ReadingARegionAsANumber := by
  intro r
  refine ⟨?_, readNumber_malformed r, readNumber_points r, fun hbytes hpoint => ⟨fun hlarge => ?_, fun hfits => ?_⟩⟩
  · rintro rfl
    rfl
  · rw [readNumber_decimal r hbytes hpoint, if_pos hlarge]
  · rw [readNumber_decimal r hbytes hpoint, if_neg (Nat.not_le.mpr hfits)]
    exact valResponse_of_lt _ hfits

/-! ## Locating a region (R150, R151) -/

theorem locate_of_absent_tag (p tag unit : ByteString) (h : Absent p tag 0) : locate p tag unit = none := by
  simp only [locate, (find_eq_none p tag 0).mpr h]

theorem locate_of_absent_unit (p tag unit : ByteString) (t : Nat) (htag : FirstAt p tag 0 t)
    (hunit : Absent p unit (t + tag.length)) : locate p tag unit = none := by
  simp only [locate, (find_eq_some p tag 0 t).mpr htag, (find_eq_none p unit _).mpr hunit]

theorem locate_of_firstAt (p tag unit : ByteString) (t u : Nat) (htag : FirstAt p tag 0 t)
    (hunit : FirstAt p unit (t + tag.length) u) :
    locate p tag unit = some ((p.drop (t + tag.length)).take (u - (t + tag.length))) := by
  simp only [locate, (find_eq_some p tag 0 t).mpr htag, (find_eq_some p unit _ u).mpr hunit]

theorem decodeField_of_locate_none (p tag unit : ByteString) (h : locate p tag unit = none) :
    decodeField p tag unit = .val 0#32 := by
  simp only [decodeField, h, valResponse]

theorem decodeField_of_locate_some (p tag unit r : ByteString) (h : locate p tag unit = some r) :
    decodeField p tag unit = readNumber r := by
  simp only [decodeField, h]

/-- Settles O30: the three results of locating the region. -/
theorem decodeReadsTheFirstMatch : Obligations.DecodeReadsTheFirstMatch := fun p tag unit =>
  ⟨fun htag => decodeField_of_locate_none _ _ _ (locate_of_absent_tag p tag unit htag),
    fun t htag hunit => decodeField_of_locate_none _ _ _ (locate_of_absent_unit p tag unit t htag hunit),
    fun t u htag hunit => decodeField_of_locate_some _ _ _ _ (locate_of_firstAt p tag unit t u htag hunit)⟩

/-! ## Six digits after the tag (R154) -/

theorem fix6_of_absent (p tag : ByteString) (off : Nat) (h : Absent p tag 0) : fix6 p tag off = .val 0#32 := by
  simp only [fix6, (find_eq_none p tag 0).mpr h, valResponse]

section
variable {p tag : ByteString} {t off : Nat} (htag : FirstAt p tag 0 t)
include htag

theorem fix6_of_short (hshort : p.length < t + tag.length + off + 6) : fix6 p tag off = .err .badField := by
  simp only [fix6, (find_eq_some p tag 0 t).mpr htag, if_pos hshort]

/-- A byte that is no digit gives `BADFIELD`, whether or not six bytes are left. -/
theorem fix6_of_not_digit
    (hbad : ∃ b ∈ (p.drop (t + tag.length + off)).take 6, b.toNat < 0x30 ∨ 0x39 < b.toNat) :
    fix6 p tag off = .err .badField := by
  have hany : ((p.drop (t + tag.length + off)).take 6).any (fun b => !isDigit b) = true := by
    simpa only [List.any_eq_true, Bool.not_eq_true', isDigit_eq_false_iff] using hbad
  simp only [fix6, (find_eq_some p tag 0 t).mpr htag, if_pos hany, ite_self]

theorem fix6_of_digits (hlong : t + tag.length + off + 6 ≤ p.length)
    (hdigits : ∀ b ∈ (p.drop (t + tag.length + off)).take 6, 0x30 ≤ b.toNat ∧ b.toNat ≤ 0x39) :
    fix6 p tag off = valResponse (digitSum ((p.drop (t + tag.length + off)).take 6)) := by
  have hall : ¬ ((p.drop (t + tag.length + off)).take 6).any (fun b => !isDigit b) = true := by
    simp only [List.any_eq_true, Bool.not_eq_true', isDigit_eq_false_iff]
    rintro ⟨b, hb, hrange⟩
    have := hdigits b hb
    omega
  simp only [fix6, (find_eq_some p tag 0 t).mpr htag, if_neg (Nat.not_lt.mpr hlong), if_neg hall,
    decimalValue_eq_digitSum]

end

/-- Settles O31: six digits make a number below `10^6`, which the response carries exactly. -/
theorem sixDigitsAfterTheTag : Obligations.SixDigitsAfterTheTag := by
  intro p tag off _
  refine ⟨fix6_of_absent p tag off, fun t htag => ⟨fix6_of_short htag, fix6_of_not_digit htag, ?_⟩⟩
  intro hlong hdigits
  have hlt : digitSum ((p.drop (t + tag.length + off)).take 6) < 10 ^ 6 :=
    (digitSum_lt _ hdigits).trans_le (Nat.pow_le_pow_right (by decide) (List.length_take_le _ _))
  obtain ⟨n, hval, hn⟩ := valResponse_of_lt _ (hlt.trans (by decide))
  exact ⟨n, (fix6_of_digits htag hlong hdigits).trans hval, hn, by omega⟩

/-! ## The three extractions (R153, R155, R156) -/

theorem extract_of_valid (f : ByteString → Response) (s : State) (p : ByteString) (hvalid : s.valid = true)
    (hp : s.payload = some p) : ∃ t, extract f s = .next t ∧ t.resp = f p ∧ t.block = s.block :=
  ⟨_, (extract_next f s _).mpr (.inr ⟨hvalid, p, hp, rfl⟩), rfl, rfl⟩

theorem extract_of_not_valid (f : ByteString → Response) (s : State) (hvalid : s.valid = false) :
    ∃ t, extract f s = .next t ∧ t.resp = .err .notReady ∧ t.block = s.block :=
  ⟨_, (extract_next f s _).mpr (.inl ⟨hvalid, rfl⟩), rfl, rfl⟩

/-- Settles O32: each of the three is `extract` of its function of the payload. -/
theorem extractionsAnswerFromTheValidFrame : Obligations.ExtractionsAnswerFromTheValidFrame := fun s _ _ =>
  ⟨fun p hvalid hp =>
      ⟨extract_of_valid _ s p hvalid hp, extract_of_valid _ s p hvalid hp, extract_of_valid _ s p hvalid hp⟩,
    fun hvalid =>
      ⟨extract_of_not_valid _ s hvalid, extract_of_not_valid _ s hvalid, extract_of_not_valid _ s hvalid⟩⟩

end Sys2Proof.Machine

namespace Sys2Proof.Machine

/-! ## The status word (10_state.md R24, R34) -/

theorem statWord_fst (s : State) : (statWord s).extractLsb' 0 2 = fstCode s.fst :=
  BitVec.extractLsb'_append_eq_right

theorem statWord_complete (s : State) : (statWord s).getLsbD 2 = s.complete := by
  unfold statWord
  rw [BitVec.getLsbD_append, BitVec.getLsbD_append]
  simp

theorem statWord_valid (s : State) : (statWord s).getLsbD 3 = s.valid := by
  unfold statWord
  rw [BitVec.getLsbD_append, BitVec.getLsbD_append, BitVec.getLsbD_append]
  simp

/-- Bits 4 and above are those of the two fields above the flags and the code of `fst`. -/
theorem statWord_above_flags (s : State) (start len : Nat) (h : 4 ≤ start) :
    (statWord s).extractLsb' start len = (0#2 ++ BitVec.ofNat 2 s.ckcnt.val).extractLsb' (start - 2 - 1 - 1) len := by
  unfold statWord
  rw [BitVec.extractLsb'_append_eq_of_le (by omega), BitVec.extractLsb'_append_eq_of_le (by omega),
    BitVec.extractLsb'_append_eq_of_le (by omega)]

theorem statWord_ckcnt (s : State) : (statWord s).extractLsb' 4 2 = BitVec.ofNat 2 s.ckcnt.val :=
  (statWord_above_flags s 4 2 (by decide)).trans BitVec.extractLsb'_append_eq_right

theorem statWord_top (s : State) : (statWord s).extractLsb' 6 2 = 0#2 :=
  (statWord_above_flags s 6 2 (by decide)).trans BitVec.extractLsb'_append_eq_left

/-! ## The host's reads (43_host_access.md R180 to R182) -/

/-- Settles O35: the word answered is `statWord`, field by field. -/
theorem frmStatAnswersThePackedStatus : Obligations.FrmStatAnswersThePackedStatus := by
  intro s
  refine ⟨_, statWord s, rfl, rfl, rfl, ?_, statWord_complete s, statWord_valid s, ?_, statWord_top s⟩
  · rw [statWord_fst]
    cases s.fst <;> rfl
  · rw [statWord_ckcnt]
    exact Nat.mod_eq_of_lt s.ckcnt.isLt

/-- Settles O36: the two cases of `execFrmRdb_next`. -/
theorem frmRdbReadsBelowLen : Obligations.FrmRdbReadsBelowLen := fun s idx =>
  ⟨fun v hlt hread => ⟨_, (execFrmRdb_next idx s _).mpr (.inr ⟨hlt, v, hread, rfl⟩), rfl, rfl⟩,
    fun hge => ⟨_, (execFrmRdb_next idx s _).mpr (.inl ⟨hge, rfl⟩), rfl, rfl⟩⟩

/-- Settles O37: the two cases of `execFrmRdck_next`; the four characters read are the quad. -/
theorem frmRdckReadsTheCompletedChecksum : Obligations.FrmRdckReadsTheCompletedChecksum := by
  intro s
  refine ⟨fun c0 c1 c2 c3 hcomplete h0 h1 h2 h3 => ?_,
    fun hcomplete => ⟨_, (execFrmRdck_next s _).mpr (.inl ⟨hcomplete, rfl⟩), rfl, rfl⟩⟩
  have hquad : Memory.quad s.ckf = some ⟨c0, c1, c2, c3⟩ := (Memory.quad_eq_some _ _).mpr ⟨h0, h1, h2, h3⟩
  exact ⟨_, (execFrmRdck_next s _).mpr (.inr ⟨hcomplete, _, hquad, rfl⟩), rfl, rfl⟩

/-! ## Reserved codes (43_host_access.md R183, 30_encoding.md R82) -/

theorem reservedHop_iff (hop : BitVec 4) : reservedHop hop = true ↔ hop = 0x0#4 ∨ 0xB#4 ≤ hop := by
  simp [reservedHop, BitVec.toNat_eq, BitVec.le_def]

/-- The record's other fields play no part (R208 item 2). -/
theorem step_reserved (s : State) (r : HostRecord) (rest : List Input) (hi : s.inputs = .host r :: rest)
    (h : reservedHop r.hop = true) : step s = exec (.hReserved r.hop) { s with inputs := rest } := by
  rw [step_cons s _ rest hi, decode_host, decodeHost_reserved r h]

/-- Settles O38: the decoder sends a reserved code to the operation that answers `BADOP` in every state. -/
theorem reservedCodesAnswerBadOp : Obligations.ReservedCodesAnswerBadOp := by
  intro s r rest hcode
  have hbadOp (u : State) : exec (.hReserved r.hop) u = .next (respond (.err .badOp) u) := rfl
  refine ⟨⟨_, hbadOp s, rfl, rfl⟩, fun hi => ?_⟩
  have hstep := step_reserved s r rest hi ((reservedHop_iff r.hop).mpr hcode)
  exact ⟨_, hstep.trans (hbadOp _), rfl, rfl⟩

end Sys2Proof.Machine

namespace Sys2Proof.Machine

/-! ## Refused extractions (42_extractor.md R153, R155, R156, 60_exceptions.md R206) -/

/-- `EXT.FIELD`, `EXT.DATE` and `EXT.TIME`: the operations whose meaning is `extract` (`exec_extraction`). -/
def IsExtraction (i : Instr) : Prop :=
  (∃ tag unit, i = .extField tag unit) ∨ (∃ tag, i = .extDate tag) ∨ (∃ tag, i = .extTime tag)

/-- The codes 8, 9 and 10 with operands of legal length decode to an extraction (30_encoding.md R81). -/
theorem decodeHost_isExtraction (r : HostRecord) (htag : operandFits r.tag = true) (hunit : operandFits r.unit = true)
    (hcode : r.hop = 0x8#4 ∨ r.hop = 0x9#4 ∨ r.hop = 0xA#4) : ∃ i, decodeHost r = .ok i ∧ IsExtraction i := by
  rcases hcode with hop | hop | hop
  · exact ⟨.extField r.tag r.unit, by simp [decodeHost, hop, checkTagUnit_ok, htag, hunit], .inl ⟨_, _, rfl⟩⟩
  · exact ⟨.extDate r.tag, by simp [decodeHost, hop, checkTag_ok, htag], .inr (.inl ⟨_, rfl⟩)⟩
  · exact ⟨.extTime r.tag, by simp [decodeHost, hop, checkTag_ok, htag], .inr (.inr ⟨_, rfl⟩)⟩

/-- Without a valid frame every extraction answers `NOTREADY` and changes nothing. -/
theorem exec_extraction_not_valid (i : Instr) (s : State) (hi : IsExtraction i) (hvalid : s.valid = false) :
    ∃ t, exec i s = .next t ∧ t.resp = .err .notReady ∧ t.block = s.block := by
  obtain ⟨f, hf⟩ := exec_extraction i hi
  rw [hf]
  exact extract_of_not_valid f s hvalid

/-- Settles O33: the record decodes to an extraction, which is refused; the byte `/` decodes to `RX.SOF`, which clears
`valid` and stores the byte at index 0. -/
theorem extractionIsRefusedUnlessValid : Obligations.ExtractionIsRefusedUnlessValid := by
  refine ⟨fun s r rest hvalid hi htag hunit hcode => ?_, fun s rest hi => ?_⟩
  · obtain ⟨i, hdecode, hext⟩ := decodeHost_isExtraction r htag hunit hcode
    have hstep : step s = exec i { s with inputs := rest } := by
      rw [step_cons s _ rest hi, decode_host, hdecode]
    rw [hstep]
    exact exec_extraction_not_valid i { s with inputs := rest } hext hvalid
  · have hstep : step s = execRxSof { s with inputs := rest } := by
      rw [step_rx s sofByte rest hi, decodeStream_sof]
      rfl
    exact ⟨_, hstep, rfl, rfl⟩

/-! ## An error response writes nothing (60_exceptions.md R203) -/

/-- No operation reads the last response: it is an output of the block (00_scope.md R12). -/
theorem exec_respond (i : Instr) (x : Response) (s : State) : exec i (respond x s) = exec i s := by
  cases i with
  | rxCkm => by_cases hroom : s.len < s.cfg.maxlen <;> simp [exec, execRxCkm, hroom] <;> rfl
  | _ => rfl

/-- An operation that answers an error has written the response and nothing else: the operations that write the block
answer `None`, or `Done` for `RX.CKE`. -/
theorem eq_respond_of_err (i : Instr) (s t : State) (e : ErrCode) (h : exec i s = .next t) (herr : t.resp = .err e) :
    t = respond (.err e) s := by
  rcases exec_cases i s t h with ⟨_, rfl⟩ | ⟨_, rfl⟩ | ⟨b, _, _, rfl⟩ | ⟨b, _, rfl⟩ | ⟨b, c, _, _, rfl⟩ | ⟨_, rfl⟩ |
    ⟨b, _, rfl⟩ | ⟨_, rfl⟩ | ⟨_, _, _, _, _, _, _, _, x, rfl⟩
  case inr.inr.inr.inr.inr.inr.inr.inr => rw [← herr, respond_resp]
  all_goals cases herr

/-- Settles O39: the next state differs in the response alone, which the operation does not read when issued again. -/
theorem errorResponsesChangeNothing : Obligations.ErrorResponsesChangeNothing := by
  intro i s t e h herr
  have ht : t = respond (.err e) s := eq_respond_of_err i s t e h herr
  have hagain : exec i t = exec i s := by rw [ht, exec_respond]
  exact ⟨by rw [ht, respond_block], hagain.trans h⟩

/-! ## Where each error code comes from (60_exceptions.md R202, 30_encoding.md R83) -/

/-- The operation and the condition that R202 lists for each code; the conditions on a region or on the six digits stay
open (`readingARegionAsANumber`, `sixDigitsAfterTheTag`). -/
inductive ErrorOrigin (s : State) : Instr → ErrCode → Prop
  | notComplete : s.complete = false → ErrorOrigin s .frmRdck .notReady
  | notValid (i : Instr) : IsExtraction i → s.valid = false → ErrorOrigin s i .notReady
  | badIndex (idx : BitVec 16) : s.len ≤ idx.toNat → ErrorOrigin s (.frmRdb idx) .badIndex
  | badOp (hop : BitVec 4) : ErrorOrigin s (.hReserved hop) .badOp
  | badField (i : Instr) : IsExtraction i → s.valid = true → ErrorOrigin s i .badField
  | overflow (tag unit : ByteString) : s.valid = true → ErrorOrigin s (.extField tag unit) .overflow

/-- An extraction's error is `NOTREADY` without a valid frame, and otherwise its function's answer on the payload. -/
theorem extract_err (f : ByteString → Response) (s t : State) (e : ErrCode) (h : extract f s = .next t)
    (herr : t.resp = .err e) : (s.valid = false ∧ e = .notReady) ∨ (s.valid = true ∧ ∃ p, f p = .err e) := by
  rcases (extract_next f s t).mp h with ⟨hvalid, rfl⟩ | ⟨hvalid, p, _, rfl⟩
  · cases herr
    exact .inl ⟨hvalid, rfl⟩
  · exact .inr ⟨hvalid, p, herr⟩

theorem decodeField_err (p tag unit : ByteString) (e : ErrCode) (herr : decodeField p tag unit = .err e) :
    e = .badField ∨ e = .overflow := by
  rcases decodeField_cases p tag unit with ⟨n, hn⟩ | hbad | hover
  · cases hn.symm.trans herr
  · cases hbad.symm.trans herr
    exact .inl rfl
  · cases hover.symm.trans herr
    exact .inr rfl

theorem fix6_err (p tag : ByteString) (off : Nat) (e : ErrCode) (herr : fix6 p tag off = .err e) : e = .badField := by
  rcases fix6_cases p tag off with ⟨n, hn⟩ | hbad
  · cases hn.symm.trans herr
  · cases hbad.symm.trans herr
    rfl

/-- `EXT.DATE` and `EXT.TIME` are `extract` of `fix6` at their offset. -/
theorem errorOrigin_of_extract_fix6 (i : Instr) (s t : State) (e : ErrCode) (tag : ByteString) (off : Nat)
    (hi : IsExtraction i) (h : extract (fun p => fix6 p tag off) s = .next t) (herr : t.resp = .err e) :
    ErrorOrigin s i e := by
  rcases extract_err _ s t e h herr with ⟨hvalid, rfl⟩ | ⟨hvalid, p, hp⟩
  · exact .notValid i hi hvalid
  · obtain rfl := fix6_err p tag off e hp
    exact .badField i hi hvalid

/-- Every error an operation answers has its origin in R202. -/
theorem errorOrigin_of_exec (i : Instr) (s t : State) (e : ErrCode) (h : exec i s = .next t) (herr : t.resp = .err e) :
    ErrorOrigin s i e := by
  cases i with
  | frmRdb idx =>
    rcases (execFrmRdb_next idx s t).mp h with ⟨hge, rfl⟩ | ⟨_, v, _, rfl⟩ <;> cases herr
    exact .badIndex idx hge
  | frmRdck =>
    rcases (execFrmRdck_next s t).mp h with ⟨hcomplete, rfl⟩ | ⟨_, c, _, rfl⟩ <;> cases herr
    exact .notComplete hcomplete
  | extField tag unit =>
    rcases extract_err _ s t e h herr with ⟨hvalid, rfl⟩ | ⟨hvalid, p, hp⟩
    · exact .notValid _ (.inl ⟨tag, unit, rfl⟩) hvalid
    · rcases decodeField_err p tag unit e hp with rfl | rfl
      · exact .badField _ (.inl ⟨tag, unit, rfl⟩) hvalid
      · exact .overflow tag unit hvalid
  | extDate tag => exact errorOrigin_of_extract_fix6 _ s t e tag 0 (.inr (.inl ⟨tag, rfl⟩)) h herr
  | extTime tag => exact errorOrigin_of_extract_fix6 _ s t e tag 6 (.inr (.inr ⟨tag, rfl⟩)) h herr
  | hReserved hop => cases h; cases herr; exact .badOp hop
  | rxData b => obtain ⟨_, rfl⟩ := (execRxData_next b s t).mp h; cases herr
  | rxCke b => obtain ⟨c, _, rfl⟩ := (execRxCke_next b s t).mp h; cases herr
  | _ => cases h; cases herr

/-- An operation answers at most one response from one state. -/
theorem resp_of_answer (i : Instr) (s t : State) (x : Response) (h : exec i s = .next t)
    (hx : ∃ u, exec i s = .next u ∧ u.resp = x ∧ u.block = s.block) : t.resp = x := by
  obtain ⟨u, hu, hresp, _⟩ := hx
  cases h.symm.trans hu
  exact hresp

/-- Settles O40: each code's origins by `errorOrigin_of_exec`; and where R202 names the condition in full, the operation
answers the code under it (O36, O37 and `exec_extraction_not_valid`). -/
theorem errorCodesComeFromTheirOperations : Obligations.ErrorCodesComeFromTheirOperations := by
  intro i s t h
  have horigin (e : ErrCode) : t.resp = .err e → ErrorOrigin s i e := errorOrigin_of_exec i s t e h
  refine ⟨⟨fun herr => ?_, ?_⟩, ⟨fun herr => ?_, ?_⟩, ⟨fun herr => ?_, ?_⟩, fun herr => ?_, fun herr => ?_⟩
  · cases horigin _ herr with
    | notComplete hcomplete => exact .inl ⟨hcomplete, rfl⟩
    | notValid _ hi hvalid => exact .inr ⟨hvalid, hi⟩
  · rintro (⟨hcomplete, rfl⟩ | ⟨hvalid, hi⟩)
    · exact resp_of_answer _ s t _ h ((frmRdckReadsTheCompletedChecksum s).2 hcomplete)
    · exact resp_of_answer i s t _ h (exec_extraction_not_valid i s hi hvalid)
  · cases horigin _ herr with
    | badIndex idx hge => exact ⟨idx, rfl, hge⟩
  · rintro ⟨idx, rfl, hge⟩
    exact resp_of_answer _ s t _ h ((frmRdbReadsBelowLen s idx).2 hge)
  · cases horigin _ herr with
    | badOp hop => exact ⟨hop, rfl⟩
  · rintro ⟨hop, rfl⟩
    exact resp_of_answer _ s t _ h ⟨_, rfl, rfl, rfl⟩
  · cases horigin _ herr with
    | overflow tag unit hvalid => exact ⟨hvalid, tag, unit, rfl⟩
  · cases horigin _ herr with
    | badField _ hi hvalid => exact ⟨hvalid, hi⟩

end Sys2Proof.Machine

namespace Sys2Proof.Machine

/-! ## The reset event (70_reset_and_hazards.md R230) -/

/-- `RESET` ends in the state of R36 for the block's own `MAXLEN`, with the operations still to come kept (log 11). -/
theorem exec_reset (s : State) : exec .reset s = .next { State.resetOf s.cfg with inputs := s.inputs } := rfl

/-- Settles O2: the next state is `State.resetOf` but for `inputs`, so every register has its value of R36. -/
theorem resetEventGivesTheResetValues : Obligations.ResetEventGivesTheResetValues := by
  intro s
  refine ⟨{ State.resetOf s.cfg with inputs := s.inputs }, exec_reset s, resetOf_resp s.cfg, resetOf_gcrc s.cfg,
    resetOf_fcrc s.cfg, resetOf_fst s.cfg, resetOf_len s.cfg, resetOf_ckcnt s.cfg, resetOf_complete s.cfg,
    resetOf_valid s.cfg, fun i => ?_, fun i => ?_⟩
  · rw [resetOf_buf, Memory.read_nil]
  · rw [resetOf_ckf, Memory.read_nil]

end Sys2Proof.Machine
